-- ==== Sys2Proof/Word.lean ====
section
/-! DEFINITION. The words of the block: the byte, the 5-bit digit, the 12-bit accumulator and the
2-bit status word and the 4-bit counters (R6 and R8 of 00_scope.md, R26 to R28 of 10_state.md). -/

namespace Sys2Proof

/-- An 8-bit unsigned byte, or one code unit of text (BYTE_W of R6). -/
abbrev Byte := BitVec 8

/-- A 5-bit digit, 0..31 (DIGIT_W of R6). -/
abbrev Digit := BitVec 5

/-- The bit accumulator ACC[11:0] (R8, R26). -/
abbrev Acc := BitVec 12

/-- A 4-bit counter: T (R27) and NB (R26, D23 of 92_eei_decisions.md). -/
abbrev Counter := BitVec 4

/-- The word the host reads in STATUS[1:0] (R28). -/
abbrev StatusWord := BitVec 2

end Sys2Proof
end

