-- ==== Sys2Proof/Machine/Charset.lean ====
section
/-! DEFINITION. The two lookup tables and the two lookups on them (R80 to R87 of 40_charset.md). They
are constants: "Their contents are fixed when the hardware is built, valid from power-up, and unchanged
by reset and by every command" (R80). -/

namespace Sys2Proof.Machine

/-- ROM_ALPHA, 32 entries of 8 bits (R81): digits 0..25 are 'A'..'Z', digits 26..31 are '2'..'7'. -/
def romAlpha : Vector Byte 32 :=
  #v[0x41, 0x42, 0x43, 0x44, 0x45, 0x46, 0x47, 0x48, 0x49, 0x4A, 0x4B, 0x4C, 0x4D,
     0x4E, 0x4F, 0x50, 0x51, 0x52, 0x53, 0x54, 0x55, 0x56, 0x57, 0x58, 0x59, 0x5A,
     0x32, 0x33, 0x34, 0x35, 0x36, 0x37]

/-- ROM_REV, 41 entries of 6 bits, index j for the code 0x32 + j (R83): a digit d is stored as
`0 ++ d`, INVALID as 0x20. -/
def romRev : Vector (BitVec 6) 41 :=
  #v[0x1A, 0x1B, 0x1C, 0x1D, 0x1E, 0x1F,
     0x20, 0x20, 0x20, 0x20, 0x20, 0x20, 0x20, 0x20, 0x20,
     0x00, 0x01, 0x02, 0x03, 0x04, 0x05, 0x06, 0x07, 0x08, 0x09, 0x0A, 0x0B, 0x0C,
     0x0D, 0x0E, 0x0F, 0x10, 0x11, 0x12, 0x13, 0x14, 0x15, 0x16, 0x17, 0x18, 0x19]

/-- ALPHA[d] (R82). -/
def alpha (d : Digit) : Byte := romAlpha[d.toNat]'d.isLt

/-- The digit in an entry of ROM_REV; `none` is INVALID, e[5] = 1 (R84). -/
def revEntry (e : BitVec 6) : Option Digit :=
  if e.getLsbD 5 then none else some (e.setWidth 5)

/-- REV(c) (R84); `none` is INVALID. Outside 0x32..0x5A the table is not read. -/
def rev (c : Byte) : Option Digit :=
  if c < 0x32#8 ∨ 0x5A#8 < c then none
  else romRev[c.toNat - 0x32]?.bind revEntry

/-- '=', the padding character (R6, R107, R132). -/
def padChar : Byte := 0x3D#8

end Sys2Proof.Machine
end

