-- ==== Sys2Proof/Config.lean ====
section
/-! DEFINITION. What an implementation fixes (N_MAX, R7 of 00_scope.md) and the free values the spec
leaves open (R48 of 20_memory.md, R195 of 70_reset_and_hazards.md). -/

namespace Sys2Proof

/-- The implementation's parameters. `nMax` is N_MAX, the largest input length one command accepts;
`none` is the value `unbounded` (R7). A State carries its configuration and no step changes it
(DESIGN CHOICE, log 1). -/
structure Config where
  nMax : Option Nat
  deriving DecidableEq, Repr

/-- The free draws: what a read of an offset of IN that the host changed during the command returns
(R195: "any 8-bit value (a free draw for a model)"). No body: nothing can be proved of a value of it
(log 4). -/
opaque Config.freeByte : Nat → Byte

end Sys2Proof
end

