-- ==== Sys2Proof/Syntax.lean ====
section
/-! DEFINITION. The block's commands: one constructor per row of spec/opcode_table.json
(R63 of 30_encoding.md). -/

namespace Sys2Proof

/-- The two commands of R63. `p` is the policy bit P = CMD[2] (R62): `use_padding` for ENCODE and
`require_padding` for DECODE. The input record (n, IN) is no field of the command word (R65); it
comes with the command (`Machine.Command`). -/
inductive Instr where
  /-- ENCODE (R100): ENC with `p = false`, ENC.P with `p = true`. -/
  | enc (p : Bool)
  /-- DECODE (R130): DEC with `p = false`, DEC.P with `p = true`. -/
  | dec (p : Bool)
  deriving DecidableEq, Repr

end Sys2Proof
end

