-- ==== Sys2Proof/WellFormed.lean ====
section
/-! DEFINITION. What makes a command well formed. A term of `Instr` has one field, one bit wide, so
every term is well formed; the checks are on the command word (R61, R63 of 30_encoding.md) and on the
input length (R65). A command that fails one is answered BAD_COMMAND (R172 of 60_exceptions.md). -/

namespace Sys2Proof

/-- OP = CMD[1:0] names a command: 0 or 1 (R61; 2 and 3 are reserved, R172 (a)). -/
def opWf (w : Byte) : Bool := w.extractLsb' 0 2 == 0#2 || w.extractLsb' 0 2 == 1#2

/-- RSV = CMD[7:3] is 0 (R61: "reserved, must be 0"; R172 (b)). -/
def rsvWf (w : Byte) : Bool := w.extractLsb' 3 5 == 0#5

/-- The command word selects a command. -/
def wordWf (w : Byte) : Bool := opWf w && rsvWf w

/-- The input length is within N_MAX (R7, R65; R172 (c)). -/
def Config.accepts (cfg : Config) (n : Nat) : Bool :=
  match cfg.nMax with
  | none => true
  | some m => decide (n ≤ m)

/-- A command word and an input length that the block runs rather than refuses (R172). -/
def commandWf (cfg : Config) (w : Byte) (n : Nat) : Bool := wordWf w && cfg.accepts n

/-- Every `Instr` is well formed: its one field is the one-bit P (R65). -/
def Instr.wf (i : Instr) : Bool :=
  match i with
  | .enc _ => true
  | .dec _ => true

end Sys2Proof
end

