-- ==== Sys2Proof/Decode.lean ====
section
/-! DEFINITION. Decoding a command word (R61 to R64 of 30_encoding.md), total on all 256 words and
rejecting the reserved ones by name, and the encoder written from the same table. -/

namespace Sys2Proof

/-- OP, bits 1..0 of CMD (R61). -/
def opField (w : Byte) : BitVec 2 := w.extractLsb' 0 2

/-- P, bit 2 of CMD (R61, R62). -/
def policyField (w : Byte) : Bool := w.getLsbD 2

/-- RSV, bits 7..3 of CMD (R61). -/
def rsvField (w : Byte) : BitVec 5 := w.extractLsb' 3 5

/-- Why a word is no command (R172). -/
inductive DecodeError where
  /-- CMD[1:0] is 2 or 3 (R172 (a)). -/
  | reservedOp
  /-- CMD[7:3] is not 0 (R172 (b)). -/
  | reservedBits
  /-- There is no byte to decode. -/
  | noWord
  deriving DecidableEq, Repr

/-- RSV must be 0 for the word to name the command (R61). -/
def withRsvZero (w : Byte) (i : Instr) : Except DecodeError Instr :=
  if rsvField w = 0#5 then .ok i else .error .reservedBits

/-- The command decoder on one word (R63, R64): total, no word falls through to a neighbour. -/
def decodeWord (w : Byte) : Except DecodeError Instr :=
  if opField w = 0#2 then withRsvZero w (.enc (policyField w))
  else if opField w = 1#2 then withRsvZero w (.dec (policyField w))
  else .error .reservedOp

/-- Decoding the first byte of a byte sequence; the command word is one byte long and no prefix or
second word exists (R61). Answers the command and the bytes after it. -/
def decode (bs : List Byte) : Except DecodeError (Instr × List Byte) :=
  match bs with
  | [] => .error .noWord
  | w :: rest =>
    match decodeWord w with
    | .ok i => .ok (i, rest)
    | .error e => .error e

/-- CMD8 from its fields: RSV ++ P ++ OP (R61). -/
def cmd8 (rsv : BitVec 5) (p : Bool) (op : BitVec 2) : Byte := rsv ++ BitVec.ofBool p ++ op

/-- The command word of a command (R63). -/
def encodeWord (i : Instr) : Byte :=
  match i with
  | .enc p => cmd8 0#5 p 0#2
  | .dec p => cmd8 0#5 p 1#2

/-- The words of a command: one byte (R61). -/
def encode (i : Instr) : List Byte := [encodeWord i]

/-- The command that the decoder reads from a table word of `nbits` bits with value `w` (bit 0 the
least significant). Both rows of the table have 8 bits; another width is no command word, and a
value with a bit above bit 7 is none either (log 19). -/
def decodeTableWord (nbits w : Nat) : Option Instr :=
  if nbits = 8 ∧ w < 256 then
    match decode [BitVec.ofNat 8 w] with
    | .ok (i, _) => some i
    | .error _ => none
  else none

end Sys2Proof
end

