-- ==== Sys2Proof/Machine/Flags.lean ====
section
/-! DEFINITION. The one flag-like register, STATUS, and its four values (R28 of 10_state.md). The
block has no condition codes (R32). -/

namespace Sys2Proof.Machine

/-- NONE: no command has completed since reset (R28). -/
def statusNone : StatusWord := 0#2

/-- OK: the last command succeeded; OUT holds its output (R28). -/
def statusOk : StatusWord := 1#2

/-- INVALID_ENCODING: the last command was a DECODE that failed validation (R28, R171). -/
def statusInvalidEncoding : StatusWord := 2#2

/-- BAD_COMMAND: the last command was refused before it ran (R28, R172). -/
def statusBadCommand : StatusWord := 3#2

end Sys2Proof.Machine
end

