-- ==== Sys2Proof/Machine/State.lean ====
section
/-! DEFINITION. The state of the block (R20 to R35 of 10_state.md, R40 of 20_memory.md), as plain
data, with what the model adds to it: the configuration, the host's pending actions and the bookkeeping
of free draws. The ROMs are no state but constants (R20, R30): Machine/Charset.lean. -/

namespace Sys2Proof.Machine

/-- PHASE (R22): IDLE, or what the running command is doing. -/
inductive Phase where
  | idle
  | eLoad
  | eEmit
  | eTail
  | ePad
  | dStruct
  | dChar
  | dFinal
  deriving DecidableEq, Repr

/-- One address space of bytes (R40): the bytes it holds, by rising offset; an offset not listed
holds no byte (log 3). -/
abbrev Memory := List Host.Cell

/-- A command as the host presents it (R60): the word CMD and the sequence IN. -/
structure Command where
  cmd   : Byte
  input : List Byte
  deriving DecidableEq, Repr

/-- n, the length of IN (R60). -/
def Command.n (c : Command) : Nat := c.input.length

/-- What the host does at the block's interface while a command may be running. -/
inductive HostAction where
  /-- Present a command at the port (R194); it waits while the port holds another. -/
  | present (c : Command)
  /-- Let the block make one internal step (R22, R198). -/
  | pulse
  /-- Change the byte of IN at an offset (R48, R195). -/
  | disturb (offset : Nat)
  /-- Assert reset (R190, R191). -/
  | reset
  deriving DecidableEq, Repr

/-- The state of one block. -/
structure State where
  /-- The implementation's parameters (R7); constant. -/
  cfg : Config
  /-- PHASE (R22). -/
  phase : Phase
  /-- CMD, the latched command word (R23). -/
  cmd : Byte
  /-- N, the latched input length (R23). -/
  n : Nat
  /-- I, the next input offset (R25). -/
  i : Nat
  /-- K, the output count (R24). -/
  k : Nat
  /-- T, the trailing '=' count, 4 bits, 0..8 (R27). -/
  t : Counter
  /-- L, the payload length (R27). -/
  l : Nat
  /-- ACC, the bit accumulator (R26). -/
  acc : Acc
  /-- NB, the count of unconsumed low bits of ACC, 4 bits, 0..12 (R26). -/
  nb : Counter
  /-- STATUS (R28). -/
  status : StatusWord
  /-- OUTLEN (R29). -/
  outLen : Nat
  /-- OUT, the response (R29). -/
  out : List Byte
  /-- The space IN (R41). -/
  input : Memory
  /-- The output staging buffer of the space OUT (R42). -/
  staging : Memory
  /-- The command held at the port, if any (R194). -/
  port : Option Command
  /-- The host's pending actions, oldest first: the model's field (log 5). -/
  hostActions : List HostAction
  /-- The offsets of IN the host changed since acceptance: the model's field (R195, log 4). -/
  changed : List Nat
  /-- The number of free draws made: the model's field (log 4). -/
  draws : Nat
  deriving DecidableEq, Repr

/-- Why the machine stops. No accepted command of the spec reaches either (R41, R170); both are safe. -/
inductive Fault where
  /-- Raised by a read of IN at an offset that holds no byte (R41: "No rule reads an offset at or
  beyond n"). Safe. -/
  | inputUnlisted (offset : Nat)
  /-- Raised when a command has not completed within the step bound of R198. Safe. -/
  | stepBound
  deriving DecidableEq, Repr

/-- Why an instruction has no meaning. -/
inductive Refusal where
  /-- Raised by `exec`'s arm of an instruction that has no meaning yet. Safe. No arm raises it. -/
  | notModelled (mnemonic : String)
  deriving DecidableEq, Repr

/-- The block right after reset (R34, R190): PHASE IDLE, STATUS NONE, OUTLEN 0, OUT empty. R34 leaves
CMD, N, I, K, T, L, ACC and NB unspecified; here they are 0 (DESIGN CHOICE, log 2). N_MAX is
unbounded, no memory is listed, no command is held and the host has nothing pending (DESIGN CHOICE,
logs 1, 3, 5, 9). -/
def State.reset : State where
  cfg := ⟨none⟩
  phase := .idle
  cmd := 0#8
  n := 0
  i := 0
  k := 0
  t := 0#4
  l := 0
  acc := 0#12
  nb := 0#4
  status := statusNone
  outLen := 0
  out := []
  input := []
  staging := []
  port := none
  hostActions := []
  changed := []
  draws := 0

end Sys2Proof.Machine
end

