-- ==== Sys2Proof/Machine/Operands.lean ====
section
/-! DEFINITION. The operands of the two commands: the policy bit P of the latched word, and the fields
of the accumulator that the steps put in and take out (R62 and R65 of 30_encoding.md, R104 to R106 of
41_encode.md, R139 to R141 of 42_decode.md). -/

namespace Sys2Proof.Machine

/-- P = CMD[2] of the latched command word (R62, R100, R130). -/
def State.policy (s : State) : Bool := policyField s.cmd

/-- `((ACC << 8) | zext_12(b))[11:0]` (R104). -/
def accPutByte (acc : Acc) (b : Byte) : Acc := (acc <<< 8) ||| b.setWidth 12

/-- `((ACC << 5) | zext_12(v))[11:0]` (R139). -/
def accPutDigit (acc : Acc) (v : Digit) : Acc := (acc <<< 5) ||| v.setWidth 12

/-- `(ACC >> (NB - 5))[4:0]` = ACC[NB-1:NB-5] (R105). -/
def accTakeDigit (acc : Acc) (nb : Nat) : Digit := (acc >>> (nb - 5)).setWidth 5

/-- `(ACC << (5 - NB))[4:0]`: ACC[NB-1:0] followed by 5 - NB zero bits (R106). -/
def accTailDigit (acc : Acc) (nb : Nat) : Digit := (acc <<< (5 - nb)).setWidth 5

/-- `(ACC >> (NB - 8))[7:0]` = ACC[NB-1:NB-8] (R140). -/
def accTakeByte (acc : Acc) (nb : Nat) : Byte := (acc >>> (nb - 8)).setWidth 8

/-- The leftover bits `ACC[NB-1:0]` as a number (R141). -/
def accLeftover (acc : Acc) (nb : Nat) : Nat := acc.toNat % 2 ^ nb

/-- A payload remainder that is never valid: L mod 8 in {1, 3, 6} (R135, FORBIDDEN_REM of R6). -/
def forbiddenRemainder (l : Nat) : Bool := l % 8 == 1 || l % 8 == 3 || l % 8 == 6

end Sys2Proof.Machine
end

