-- ==== Sys2Proof/Machine/Ops.lean ====
section
/-! DEFINITION. The shared operations: reading and writing the byte spaces (R41, R42 of 20_memory.md),
`Emit` (R11 of 00_scope.md), the two completions that every command ends in (R175, R176 of
60_exceptions.md: the block's "trap entry" and "return"; there is no handler and no return, R177), what
acceptance latches (R194 of 70_reset_and_hazards.md), and reset (R190, R191). -/

namespace Sys2Proof.Machine

/-- Canonical form: offsets strictly rising. An unlisted offset holds no byte, so no entry can repeat
what an unlisted offset reads as. -/
abbrev Memory.wf (m : Memory) : Prop := m.Pairwise (fun c d => c.1 < d.1)

/-- The byte at offset `a`, if the space holds one. -/
def Memory.read (m : Memory) (a : Nat) : Option Byte :=
  match m with
  | [] => none
  | (x, b) :: rest => if x = a then some b else Memory.read rest a

/-- Write `v` at offset `a`, keeping the offsets rising. -/
def Memory.write (m : Memory) (a : Nat) (v : Byte) : Memory :=
  match m with
  | [] => [(a, v)]
  | (x, b) :: rest =>
    if a < x then (a, v) :: (x, b) :: rest
    else if a = x then (a, v) :: rest
    else (x, b) :: Memory.write rest a v

/-- The bytes `bs` at offsets `a`, `a + 1`, ... -/
def Memory.ofBytesFrom (a : Nat) (bs : List Byte) : Memory :=
  match bs with
  | [] => []
  | b :: rest => (a, b) :: Memory.ofBytesFrom (a + 1) rest

/-- A byte sequence as a space, element 0 at offset 0 (R43, R46). -/
def Memory.ofBytes (bs : List Byte) : Memory := Memory.ofBytesFrom 0 bs

/-- The bytes at offsets 0..k-1, in order: OUT[0..K) of R175. -/
def Memory.slice (m : Memory) (k : Nat) : List Byte := (List.range k).filterMap m.read

/-- `MemRead(IN:a, 1)` (R41): the byte and the state after, or none where IN holds no byte. An offset
the host changed during the command yields a free draw, a new one at each read (R48, R195). -/
def memRead (a : Nat) (s : State) : Option (Byte × State) :=
  match s.input.read a with
  | none => none
  | some b =>
    if s.changed.contains a then some (Config.freeByte s.draws, { s with draws := s.draws + 1 })
    else some (b, s)

/-- `Emit(v)` (R11): `MemWrite(OUT:K, 1, v); K <- K + 1`. -/
def State.emit (v : Byte) (s : State) : State :=
  { s with staging := s.staging.write s.k v, k := s.k + 1 }

/-- `complete OK` (R175), one atomic update: STATUS <- 1, OUTLEN <- K, OUT <- the staged bytes
OUT[0..K), PHASE <- IDLE. The staged bytes have moved to the response (log 18). -/
def State.completeOk (s : State) : State :=
  { s with
    status := statusOk
    outLen := s.k
    out := s.staging.slice s.k
    staging := []
    phase := .idle }

/-- Failing completion (R176), one atomic update: STATUS <- the code, OUTLEN <- 0, OUT <- empty,
PHASE <- IDLE; the staged bytes are discarded. Nothing else is recorded (R173). -/
def State.fail (code : StatusWord) (s : State) : State :=
  { s with status := code, outLen := 0, out := [], staging := [], phase := .idle }

/-- `raise InvalidEncoding()` (R11, R171). -/
def State.raiseInvalidEncoding (s : State) : State := s.fail statusInvalidEncoding

/-- `raise BadCommand()` (R11, R172). -/
def State.raiseBadCommand (s : State) : State := s.fail statusBadCommand

/-- Acceptance latches CMD and N and frees the port (R23, R194). -/
def State.latch (c : Command) (s : State) : State :=
  { s with cmd := c.cmd, n := c.n, port := none }

/-- Acceptance binds IN for the command's duration (R194); the host has changed no byte of it yet. The bytes
bound are those the host presented: R48 and R195 do not say what a host write does to a command that still
waits at the port, and here it does nothing (DESIGN CHOICE, log 23). -/
def State.bindInput (c : Command) (s : State) : State :=
  { s with input := Memory.ofBytes c.input, changed := [] }

/-- The first line of both commands (R100, R130): `K <- 0; I <- 0; ACC <- 0; NB <- 0`. With K = 0
nothing is staged. -/
def State.clearWork (s : State) : State :=
  { s with k := 0, i := 0, acc := 0#12, nb := 0#4, staging := [] }

/-- Reset of a block in any phase (R190, R191): the registers take the values of `State.reset`, and a
running command is abandoned with no response. What is outside the block stays: the configuration, the
command the host holds at the port and the host's pending actions (log 9), and the draw counter. -/
def State.resetBlock (s : State) : State :=
  { State.reset with
    cfg := s.cfg
    port := s.port
    hostActions := s.hostActions
    draws := s.draws }

/-- The host changes the byte of IN at an offset. Only while a command runs is IN bound to the block
(R40, R48), so only then does the block see it (log 4). The change counts against the running command alone:
a command held at the port meanwhile keeps the bytes it was presented with (DESIGN CHOICE, log 23). -/
def State.disturb (offset : Nat) (s : State) : State :=
  if s.phase = .idle then s else { s with changed := offset :: s.changed }

/-- The host presents a command at a free port (R194). The port holds its bytes as presented until acceptance
(DESIGN CHOICE, log 23). -/
def State.present (c : Command) (s : State) : State := { s with port := some c }

/-- The response record the host reads (R60, R66). -/
structure Response where
  status : StatusWord
  outLen : Nat
  out    : List Byte
  deriving DecidableEq, Repr

/-- Reading STATUS, OUTLEN and OUT; no side effect (R28, R45, R196). -/
def State.response (s : State) : Response := ⟨s.status, s.outLen, s.out⟩

/-- What the host sees of PHASE (R22): BUSY, or not. -/
def State.busy (s : State) : Bool := s.phase != .idle

end Sys2Proof.Machine
end

