-- ==== Sys2Proof/Machine/DecodeSteps.lean ====
section
/-! DEFINITION. The internal steps of DECODE, one pass of a loop each (R130 to R141 of 42_decode.md;
R22 of 10_state.md). A loop's test is made at the end of the step before it (log 6). -/

namespace Sys2Proof.Machine

/-- The test of the D_CHAR loop (R130): D_CHAR while I < L, else D_FINAL. -/
def decNextPhase (s : State) : Phase := if s.i < s.l then .dChar else .dFinal

/-- The end of phase 1: L <- the payload length (R133, R134), then the remainder check (R135). -/
def decSetPayload (len : Nat) (s : State) : State :=
  let s1 := { s with l := len }
  if forbiddenRemainder len then s1.raiseInvalidEncoding
  else { s1 with phase := decNextPhase s1 }

/-- The end of the padding count under P = 1: T > 7 fails (PAD_RUN, R132), else L <- N - T (R133). -/
def decEndPadRun (s : State) : State :=
  if 7 < s.t.toNat then s.raiseInvalidEncoding else decSetPayload (s.n - s.t.toNat) s

/-- The command's start (R130): the first line, then under P = 1 the length check (LENGTH, R131) and
T <- 0. -/
def decStart (p : Bool) (s : State) : State :=
  let s1 := s.clearWork
  if p = true then
    if s1.n % 8 ≠ 0 then s1.raiseInvalidEncoding
    else { s1 with t := 0#4, phase := .dStruct }
  else { s1 with phase := .dStruct }

/-- What D_STRUCT does with the trailing code unit it read (R132): count a '=', or end the count. -/
def decCountPad (c : Byte) (s : State) : State :=
  if c = padChar then { s with t := s.t + 1#4 } else decEndPadRun s

/-- D_STRUCT (R131 to R135): under P = 1 one pass of the padding count, at most 8 reads from the end
(R132); under P = 0 no padding is stripped and L <- N (R134). -/
def decStruct (p : Bool) (s : State) : Host.Outcome State Fault Refusal :=
  if p = true then
    if s.t.toNat < 8 ∧ s.t.toNat < s.n then
      match memRead (s.n - 1 - s.t.toNat) s with
      | none => .fault (.inputUnlisted (s.n - 1 - s.t.toNat))
      | some (c, s') => .next (decCountPad c s')
    else .next (decEndPadRun s)
  else .next (decSetPayload s.n s)

/-- R140: with NB >= 8, emit the next byte and NB <- NB - 8. -/
def decEmitByte (s : State) : State :=
  if 8 ≤ s.nb.toNat then { s.emit (accTakeByte s.acc s.nb.toNat) with nb := s.nb - 8#4 } else s

/-- What D_CHAR does with the code unit it read: I <- I + 1; REV (R137), INVALID fails (CHAR); the digit
goes into ACC, NB <- NB + 5 (R139); then R140. -/
def decPutChar (c : Byte) (s : State) : State :=
  let s1 := { s with i := s.i + 1 }
  match rev c with
  | none => s1.raiseInvalidEncoding
  | some v =>
    let s2 := decEmitByte { s1 with acc := accPutDigit s1.acc v, nb := s1.nb + 5#4 }
    { s2 with phase := decNextPhase s2 }

/-- D_CHAR, one character (R137 to R140). -/
def decChar (s : State) : Host.Outcome State Fault Refusal :=
  match memRead s.i s with
  | none => .fault (.inputUnlisted s.i)
  | some (c, s') => .next (decPutChar c s')

/-- D_FINAL (R141): leftover bits that are not all zero fail (TAIL_BITS), else complete OK. -/
def decFinal (s : State) : State :=
  if 0 < s.nb.toNat ∧ accLeftover s.acc s.nb.toNat ≠ 0 then s.raiseInvalidEncoding else s.completeOk

end Sys2Proof.Machine
end

