-- ==== Sys2Proof/Machine/EncodeSteps.lean ====
section
/-! DEFINITION. The internal steps of ENCODE, one pass of a loop each (R100, R104 to R107 of
41_encode.md; R22 of 10_state.md). A loop's test is made at the end of the step before it (log 6). -/

namespace Sys2Proof.Machine

/-- The tests of the two loops (R100): E_EMIT while NB >= 5, else E_LOAD while I < N, else E_TAIL. -/
def encNextPhase (s : State) : Phase :=
  if 5 ≤ s.nb.toNat then .eEmit else if s.i < s.n then .eLoad else .eTail

/-- The command's start (R100, first line) and the first loop test. -/
def encStart (s : State) : State :=
  let s1 := s.clearWork
  { s1 with phase := encNextPhase s1 }

/-- What E_LOAD does with the byte it read (R104): I <- I + 1, ACC takes the byte, NB <- NB + 8. -/
def encPutByte (b : Byte) (s : State) : State :=
  let s1 := { s with i := s.i + 1, acc := accPutByte s.acc b, nb := s.nb + 8#4 }
  { s1 with phase := encNextPhase s1 }

/-- E_LOAD, one byte (R104). -/
def encLoad (s : State) : Host.Outcome State Fault Refusal :=
  match memRead s.i s with
  | none => .fault (.inputUnlisted s.i)
  | some (b, s') => .next (encPutByte b s')

/-- E_EMIT, one digit (R105): emit ALPHA of the next 5 bits, NB <- NB - 5. -/
def encEmit (s : State) : State :=
  let s1 := { s.emit (alpha (accTakeDigit s.acc s.nb.toNat)) with nb := s.nb - 5#4 }
  { s1 with phase := encNextPhase s1 }

/-- The test of E_PAD (R107): with P = 1 and K mod 8 not 0 there is padding to emit; else complete. -/
def encPadOrDone (p : Bool) (s : State) : State :=
  if p = true ∧ s.k % 8 ≠ 0 then { s with phase := .ePad } else s.completeOk

/-- E_TAIL, once (R106): with NB > 0, emit ALPHA of the leftover bits completed with zero bits. -/
def encTail (p : Bool) (s : State) : State :=
  encPadOrDone p
    (if 0 < s.nb.toNat then { s.emit (alpha (accTailDigit s.acc s.nb.toNat)) with nb := 0#4 } else s)

/-- E_PAD, one '=' (R107). -/
def encPad (p : Bool) (s : State) : State := encPadOrDone p (s.emit padChar)

end Sys2Proof.Machine
end

