-- ==== Sys2Proof/Machine/Internal.lean ====
section
/-! DEFINITION. One internal step of a running command (R22 of 10_state.md), and running one to its
completion within the bounds of R198 of 70_reset_and_hazards.md. -/

namespace Sys2Proof.Machine

/-- One internal step under policy `p`. In IDLE there is none to make. -/
def microStep (p : Bool) (s : State) : Host.Outcome State Fault Refusal :=
  match s.phase with
  | .idle => .next s
  | .eLoad => encLoad s
  | .eEmit => .next (encEmit s)
  | .eTail => .next (encTail p s)
  | .ePad => .next (encPad p s)
  | .dStruct => decStruct p s
  | .dChar => decChar s
  | .dFinal => .next (decFinal s)

/-- Internal steps until PHASE = IDLE, at most `bound` of them. -/
def runToIdle (p : Bool) (bound : Nat) (s : State) : Host.Outcome State Fault Refusal :=
  match bound with
  | 0 => if s.phase = .idle then .next s else .fault .stepBound
  | f + 1 =>
    if s.phase = .idle then .next s
    else
      match microStep p s with
      | .next s' => runToIdle p f s'
      | .fault r => .fault r
      | .refused r => .refused r

/-- ENCODE's internal steps at most (R198): n loads, ceil(8n / 5) emissions, 1 tail, 7 of padding. -/
def encBound (n : Nat) : Nat := n + (8 * n + 4) / 5 + 1 + 7

/-- DECODE's internal steps at most (R198): 8 trailing reads, n characters, 1 final step. A padding count
that ends at 8 makes one step more in D_STRUCT and none after it; under P = 0 D_STRUCT is one step. -/
def decBound (n : Nat) : Nat := 8 + n + 1

/-- The bound for the command a phase belongs to. -/
def phaseBound (ph : Phase) (n : Nat) : Nat :=
  match ph with
  | .idle => 0
  | .eLoad | .eEmit | .eTail | .ePad => encBound n
  | .dStruct | .dChar | .dFinal => decBound n

end Sys2Proof.Machine
end

