-- ==== Sys2Proof/Machine/Decode.lean ====
section
/-! DEFINITION. The meaning of DECODE (R130 of 42_decode.md), run as one transition (R199). -/

namespace Sys2Proof.Machine

/-- DECODE (R130): from an accepted command (CMD and N latched, IN bound) to its completion, OK or
INVALID_ENCODING. -/
def execDec (p : Bool) (s : State) : Host.Outcome State Fault Refusal :=
  runToIdle p (decBound s.n) (decStart p s)

end Sys2Proof.Machine
end

