-- ==== Sys2Proof/Machine/Encode.lean ====
section
/-! DEFINITION. The meaning of ENCODE (R100 of 41_encode.md), run as one transition (R199). -/

namespace Sys2Proof.Machine

/-- ENCODE (R100): from an accepted command (CMD and N latched, IN bound) to its completion. Always
completes OK (R108). -/
def execEnc (p : Bool) (s : State) : Host.Outcome State Fault Refusal :=
  runToIdle p (encBound s.n) (encStart s)

end Sys2Proof.Machine
end

