-- ==== Sys2Proof/Machine/Dispatch.lean ====
section
/-! DEFINITION. The meaning of each command, by constructor (R63 of 30_encoding.md). -/

namespace Sys2Proof.Machine

def exec (i : Instr) (s : State) : Host.Outcome State Fault Refusal :=
  match i with
  | .enc p => Sys2Proof.Machine.execEnc p s
  | .dec p => Sys2Proof.Machine.execDec p s

end Sys2Proof.Machine
end

