-- ==== Sys2Proof/Machine/Port.lean ====
section
/-! DEFINITION. The command port: acceptance or refusal of the held command (R194 of
70_reset_and_hazards.md, R172 and R174 of 60_exceptions.md), and one internal step of the block. -/

namespace Sys2Proof.Machine

/-- What the block finds at its port when it is IDLE. -/
inductive Intake where
  /-- No command: the block waits in IDLE (R185). -/
  | waiting
  /-- The command is refused; the state has its BAD_COMMAND response (R172). -/
  | rejected (s : State)
  /-- The command is accepted; CMD and N are latched and IN is bound (R194). -/
  | accepted (i : Instr) (s : State)
  deriving DecidableEq, Repr

/-- Taking the command held at the port: CMD and N are latched; a reserved word or n > N_MAX is refused
before anything else is tested, with no byte of IN read and no other register written (R172, R174). -/
def intake (s : State) : Intake :=
  match s.port with
  | none => .waiting
  | some c =>
    match decodeWord c.cmd with
    | .error _ => .rejected (s.latch c).raiseBadCommand
    | .ok i =>
      if s.cfg.accepts c.n then .accepted i ((s.latch c).bindInput c)
      else .rejected (s.latch c).raiseBadCommand

/-- The start of an accepted command (R100, R130). -/
def startCommand (i : Instr) (s : State) : State :=
  match i with
  | .enc _ => encStart s
  | .dec p => decStart p s

/-- One internal step of the block: one step of the running command, or in IDLE the acceptance or
refusal of a held command, or waiting (R22, R185, R194). -/
def blockStep (s : State) : Host.Outcome State Fault Refusal :=
  if s.phase = .idle then
    match intake s with
    | .waiting => .next s
    | .rejected s' => .next s'
    | .accepted i s' => .next (startCommand i s')
  else microStep s.policy s

/-- `k` internal steps of the block. -/
def blockSteps (k : Nat) (s : State) : Host.Outcome State Fault Refusal :=
  match k with
  | 0 => .next s
  | k + 1 =>
    match blockStep s with
    | .next s' => blockSteps k s'
    | .fault r => .fault r
    | .refused r => .refused r

end Sys2Proof.Machine
end

