-- ==== Sys2Proof/Machine/Schedule.lean ====
section
/-! DEFINITION. What the next step is: with no host action pending, one whole command (R199 of
70_reset_and_hazards.md: "A model may run a whole command as one atomic transition"); else the host's
next action, which may land between two internal steps of a running command (R191, R194, R195). -/

namespace Sys2Proof.Machine

/-- One command-level step. IDLE: take the command at the port and run it to its completion, refuse it,
or wait. Busy: run the running command to its completion. -/
def commandStep (s : State) : Host.Outcome State Fault Refusal :=
  if s.phase = .idle then
    match intake s with
    | .waiting => .next s
    | .rejected s' => .next s'
    | .accepted i s' => exec i s'
  else runToIdle s.policy (phaseBound s.phase s.n) s

/-- The host presents `c`. A port that holds another command makes the host wait while the block moves
(R194: never dropped, never more than one held, never merged). -/
def presentStep (c : Command) (rest : List HostAction) (s : State) :
    Host.Outcome State Fault Refusal :=
  match s.port with
  | none => .next { s.present c with hostActions := rest }
  | some _ => blockStep s

/-- One action of the host; `rest` are the actions after it. -/
def hostStep (a : HostAction) (rest : List HostAction) (s : State) :
    Host.Outcome State Fault Refusal :=
  match a with
  | .present c => presentStep c rest s
  | .pulse => blockStep { s with hostActions := rest }
  | .disturb offset => .next ({ s with hostActions := rest }.disturb offset)
  | .reset => .next { s with hostActions := rest }.resetBlock

/-- The next step: the host's next action if it has one pending, else one command (log 5). -/
def nextStep (s : State) : Host.Outcome State Fault Refusal :=
  match s.hostActions with
  | [] => commandStep s
  | a :: rest => hostStep a rest s

/-- The state in which the next step takes the command word `w`, with an empty input, from the port:
the block IDLE, no host action pending, the word held at the port (log 10). -/
def holdWord (w : Byte) (s : State) : State :=
  { s with phase := .idle, hostActions := [], port := some ⟨w, []⟩ }

end Sys2Proof.Machine
end

