-- ==== Sys2Proof/Machine/Step.lean ====
section
/-! DEFINITION. The step of the machine, and the placing of a command word where the step takes its next
command. The block has no program counter and fetches nothing: the host supplies each command at the
port (R31 of 10_state.md; log 7). -/

namespace Sys2Proof.Machine

/-- One step of the machine. -/
def step (s : State) : Host.Outcome State Fault Refusal := nextStep s

/-- `s` with the command word `w` (its low 8 bits; the table's rows are 8 bits wide) held at the port as
the command the next step takes, with an empty input. -/
def State.withFetchWord (s : State) (_nbits w : Nat) : State := holdWord (BitVec.ofNat 8 w) s

end Sys2Proof.Machine
end

