-- ==== Sys2Proof/Machine/Assembler.lean ====
section
/-! DEFINITION. The command syntax of R67 of 30_encoding.md, read into commands: a line is
`<mnemonic> <input>`, the mnemonic ENC, ENC.P, DEC, DEC.P or CMD 0x<hh>, the input a quoted ASCII string
or x followed by a quoted list of hex bytes; ';' starts a comment. Notation only (D19); the conventions
R67 leaves open are in log 21. -/

namespace Sys2Proof.Machine

/-- Why a line is no command. -/
inductive AsmError where
  /-- The line begins with no mnemonic of R67. -/
  | badMnemonic
  /-- The word of a CMD line is not `0x<hh>`. -/
  | badWord
  /-- The input is neither a quoted string nor a hex byte list, or is not closed. -/
  | badInput
  /-- Something other than a comment follows the input. -/
  | trailingText
  deriving DecidableEq, Repr

/-- The value of a hex digit, of either case (DESIGN CHOICE, log 21). -/
def hexDigit (c : Char) : Option Nat :=
  let v := c.toNat
  if 0x30 ≤ v ∧ v ≤ 0x39 then some (v - 0x30)
  else if 0x41 ≤ v ∧ v ≤ 0x46 then some (v - 0x41 + 10)
  else if 0x61 ≤ v ∧ v ≤ 0x66 then some (v - 0x61 + 10)
  else none

/-- The byte written `<hh>`. -/
def hexByte (a b : Char) : Option Byte :=
  (hexDigit a).bind fun x => (hexDigit b).map fun y => BitVec.ofNat 8 (16 * x + y)

/-- The bytes up to the closing quote of a quoted ASCII string, and the text after it. There are no escapes, a
';' is a character of the string, and any code below 128 may stand in it (DESIGN CHOICE, log 21). -/
def quotedBytes (cs : List Char) : Option (List Byte × List Char) :=
  match cs with
  | [] => none
  | c :: rest =>
    if c = '"' then some ([], rest)
    else if c.toNat < 128 then
      (quotedBytes rest).map fun r => (BitVec.ofNat 8 c.toNat :: r.1, r.2)
    else none

/-- The bytes up to the closing quote of a hex byte list, and the text after it. R67 shows a list only as
`x"66 6F 6F"` and does not say whether two bytes must be separated. Here any number of spaces may stand before,
between and after the bytes, none included, so that `x"666F"` is two bytes; the two digits of a byte stand
together, and `x""` is the empty input (DESIGN CHOICE, log 21). -/
def hexBytes (cs : List Char) : Option (List Byte × List Char) :=
  match cs with
  | [] => none
  | [c] => if c = '"' then some ([], []) else none
  | c :: d :: rest =>
    if c = '"' then some ([], d :: rest)
    else if c = ' ' then hexBytes (d :: rest)
    else (hexByte c d).bind fun b => (hexBytes rest).map fun r => (b :: r.1, r.2)

/-- The input operand of a line, and the text after it. -/
def inputOperand (cs : List Char) : Option (List Byte × List Char) :=
  match cs with
  | '"' :: rest => quotedBytes rest
  | 'x' :: '"' :: rest => hexBytes rest
  | _ => none

/-- The text without its leading spaces; a space is U+0020 and no other character (DESIGN CHOICE, log 21). -/
def skipSpaces (cs : List Char) : List Char := cs.dropWhile (· = ' ')

/-- Nothing, or a comment. -/
def endOfLine (cs : List Char) : Bool :=
  match skipSpaces cs with
  | [] => true
  | c :: _ => c = ';'

/-- The command word a line begins with, and the text after it (R63, R67). R67 gives `CMD 0x<hh>` as the way a
reserved word is written and does not say whether it may carry another. Here it may carry any of the 256 words,
so that CMD 0x00 is ENC (DESIGN CHOICE, log 21). -/
def lineWord (cs : List Char) : Except AsmError (Byte × List Char) :=
  let name := cs.takeWhile (· ≠ ' ')
  let rest := skipSpaces (cs.dropWhile (· ≠ ' '))
  if name = ['E', 'N', 'C'] then .ok (0x00#8, rest)
  else if name = ['E', 'N', 'C', '.', 'P'] then .ok (0x04#8, rest)
  else if name = ['D', 'E', 'C'] then .ok (0x01#8, rest)
  else if name = ['D', 'E', 'C', '.', 'P'] then .ok (0x05#8, rest)
  else if name = ['C', 'M', 'D'] then
    match rest with
    | '0' :: 'x' :: a :: b :: rest' =>
      match hexByte a b with
      | some w => .ok (w, skipSpaces rest')
      | none => .error .badWord
    | _ => .error .badWord
  else .error .badMnemonic

/-- One line: a command, or nothing (an empty line or a comment). -/
def parseLine (cs : List Char) : Except AsmError (Option Command) :=
  if endOfLine cs then .ok none
  else
    match lineWord (skipSpaces cs) with
    | .error e => .error e
    | .ok (w, rest) =>
      match inputOperand rest with
      | none => .error .badInput
      | some (bs, after) => if endOfLine after then .ok (some ⟨w, bs⟩) else .error .trailingText

/-- A program: a sequence of lines (R67). -/
def parseProgram (lines : List (List Char)) : Except AsmError (List Command) :=
  match lines with
  | [] => .ok []
  | line :: rest =>
    match parseLine line, parseProgram rest with
    | .ok none, .ok cs => .ok cs
    | .ok (some c), .ok cs => .ok (c :: cs)
    | .error e, _ => .error e
    | .ok _, .error e => .error e

end Sys2Proof.Machine
end

