-- ==== Sys2Proof/Safety.lean ====
section
/-! DEFINITION. What a sound state of the block is: the relations between its registers that the spec
states of every state a run reaches (R24 to R29 of 10_state.md, R41 and R42 of 20_memory.md, R102 to
R107 of 41_encode.md, R131 to R142 of 42_decode.md), and what a safe run is. -/

namespace Sys2Proof.Machine

/-- The bytes staged: offsets 0..k-1 of OUT, each once and in order, while a command runs (R42); none
when the block is IDLE (R175, R176). -/
abbrev State.stagingInv (s : State) : Prop :=
  s.staging.map Prod.fst = List.range (if s.phase = .idle then 0 else s.k)

/-- While a command runs, IN holds exactly the bytes at offsets 0..n-1 (R41), and n is within N_MAX
(R172); always, IN is in canonical form. -/
abbrev State.inputInv (s : State) : Prop :=
  s.input.wf ∧
    (s.phase ≠ .idle → s.input.map Prod.fst = List.range s.n ∧ s.cfg.accepts s.n = true)

/-- The response: OUT has OUTLEN bytes, and none unless the last command succeeded (R29). -/
abbrev State.responseInv (s : State) : Prop :=
  s.outLen = s.out.length ∧ (s.status ≠ statusOk → s.out = [])

/-- The two 4-bit counters stay in their ranges: T counts 0..8 (R27), NB counts 0..12 (R26). -/
abbrev State.widthInv (s : State) : Prop := s.t.toNat ≤ 8 ∧ s.nb.toNat ≤ 12

/-- The latched word is ENCODE's while ENCODE runs. -/
abbrev State.runsEnc (s : State) : Prop := decodeWord s.cmd = .ok (.enc s.policy)

/-- The latched word is DECODE's while DECODE runs. -/
abbrev State.runsDec (s : State) : Prop := decodeWord s.cmd = .ok (.dec s.policy)

/-- ENCODE's bookkeeping: the 8 I bits read are the 5 K bits emitted and the NB bits kept (R104, R105). -/
abbrev State.encBits (s : State) : Prop := 8 * s.i = 5 * s.k + s.nb.toNat

/-- DECODE's bookkeeping: the 5 I bits read are the 8 K bits emitted and the NB bits kept (R139, R140). -/
abbrev State.decBits (s : State) : Prop := 5 * s.i = 8 * s.k + s.nb.toNat

/-- What holds in each phase of ENCODE, between internal steps (R103 to R107). -/
abbrev State.encPhaseInv (s : State) : Prop :=
  (s.phase = .eLoad → s.runsEnc ∧ s.encBits ∧ s.nb.toNat ≤ 4 ∧ s.i < s.n) ∧
  (s.phase = .eEmit → s.runsEnc ∧ s.encBits ∧ 5 ≤ s.nb.toNat ∧ s.i ≤ s.n) ∧
  (s.phase = .eTail → s.runsEnc ∧ s.encBits ∧ s.nb.toNat ≤ 4 ∧ s.i = s.n) ∧
  (s.phase = .ePad → s.runsEnc ∧ s.policy = true ∧ s.nb = 0#4 ∧ s.i = s.n ∧
    (8 * s.n + 4) / 5 ≤ s.k ∧ s.k < 8 * ((s.n + 4) / 5) ∧ s.k % 8 ≠ 0)

/-- What holds in each phase of DECODE, between internal steps (R131 to R141). -/
abbrev State.decPhaseInv (s : State) : Prop :=
  (s.phase = .dStruct → s.runsDec ∧ s.i = 0 ∧ s.k = 0 ∧ s.nb = 0#4 ∧
    (s.policy = true → s.n % 8 = 0 ∧ s.t.toNat ≤ s.n)) ∧
  (s.phase = .dChar → s.runsDec ∧ s.decBits ∧ s.nb.toNat ≤ 7 ∧ s.i < s.l ∧ s.l ≤ s.n ∧
    forbiddenRemainder s.l = false) ∧
  (s.phase = .dFinal → s.runsDec ∧ s.decBits ∧ s.nb.toNat ≤ 7 ∧ s.i = s.l ∧ s.l ≤ s.n ∧
    forbiddenRemainder s.l = false)

/-- A sound state: every clause holds of it. -/
structure State.Inv (s : State) : Prop where
  staging : s.stagingInv
  input : s.inputInv
  response : s.responseInv
  width : s.widthInv
  enc : s.encPhaseInv
  dec : s.decPhaseInv

/-- A safe step: it stops with neither a fault nor a refusal (R170: "No outcome is fatal"). -/
def stepSafe (s : State) : Prop := ∃ t, step s = .next t

end Sys2Proof.Machine
end

