-- ==== Sys2Proof/Certificates/Slice0/Obligations.lean ====
section
/-! DEFINITION. The statements for the provers, and the spec's closed forms they compare the machine
with (R43 of 20_memory.md, R101 to R114 of 41_encode.md, R132 to R149 of 42_decode.md). -/

open Sys2Proof Sys2Proof.Machine

namespace Sys2Proof.Spec

/-! ### The closed forms -/

/-- The bits of a byte, bit 7 first (R43). -/
def bitsOf (b : Byte) : List Bool :=
  [b.getLsbD 7, b.getLsbD 6, b.getLsbD 5, b.getLsbD 4,
   b.getLsbD 3, b.getLsbD 2, b.getLsbD 1, b.getLsbD 0]

/-- The bit stream of a byte sequence, element 0 first (R43). -/
def bitStream (bs : List Byte) : List Bool := bs.flatMap bitsOf

/-- The number whose bits are given, the first the most significant (R9). -/
def bitsValue (bits : List Bool) : Nat := bits.foldl (fun a b => 2 * a + b.toNat) 0

/-- m = ceil(8n / 5) = (8n + 4) div 5 (R102). -/
def charCount (n : Nat) : Nat := (8 * n + 4) / 5

/-- p = (8 - (m mod 8)) mod 8 (R102). -/
def padCount (n : Nat) : Nat := (8 - charCount n % 8) % 8

/-- S' = S ++ 0^(5m - 8n) (R101). -/
def paddedStream (bs : List Byte) : List Bool :=
  bitStream bs ++ List.replicate (5 * charCount bs.length - 8 * bs.length) false

/-- Digit j of the stream: S'[5j] ++ ... ++ S'[5j+4] (R101). -/
def streamDigit (bs : List Byte) (j : Nat) : Digit :=
  BitVec.ofNat 5 (bitsValue (((paddedStream bs).drop (5 * j)).take 5))

/-- The m characters of an encoding (R101). -/
def encodeChars (bs : List Byte) : List Byte :=
  (List.range (charCount bs.length)).map fun j => alpha (streamDigit bs j)

/-- The text that encodes `bs` under policy `p` (R101, R102, R107). -/
def encodeText (p : Bool) (bs : List Byte) : List Byte :=
  encodeChars bs ++ (if p = true then List.replicate (padCount bs.length) padChar else [])

/-- The 8 characters of a group of 5 bytes (R113). -/
def group8 (b0 b1 b2 b3 b4 : Byte) : List Byte :=
  [alpha (b0.extractLsb' 3 5),
   alpha (b0.extractLsb' 0 3 ++ b1.extractLsb' 6 2),
   alpha (b1.extractLsb' 1 5),
   alpha (b1.extractLsb' 0 1 ++ b2.extractLsb' 4 4),
   alpha (b2.extractLsb' 0 4 ++ b3.extractLsb' 7 1),
   alpha (b3.extractLsb' 2 5),
   alpha (b3.extractLsb' 0 2 ++ b4.extractLsb' 5 3),
   alpha (b4.extractLsb' 0 5)]

/-- `c` padding characters where P = 1 (R107, R114). -/
def padTail (p : Bool) (c : Nat) : List Byte := if p = true then List.replicate c padChar else []

/-- The dispatch form of ENCODE (R114): full groups, then the 5-way dispatch on the tail case. -/
def encodeDispatch (p : Bool) : List Byte → List Byte
  | b0 :: b1 :: b2 :: b3 :: b4 :: rest => group8 b0 b1 b2 b3 b4 ++ encodeDispatch p rest
  | [b0, b1, b2, b3] => (group8 b0 b1 b2 b3 0#8).take 7 ++ padTail p 1
  | [b0, b1, b2] => (group8 b0 b1 b2 0#8 0#8).take 5 ++ padTail p 3
  | [b0, b1] => (group8 b0 b1 0#8 0#8 0#8).take 4 ++ padTail p 4
  | [b0] => (group8 b0 0#8 0#8 0#8 0#8).take 2 ++ padTail p 6
  | [] => []

/-- c(k), the characters of a partial group of k bytes (R103). -/
def tailChars (k : Nat) : Nat := if k = 1 then 2 else if k = 2 then 4 else if k = 3 then 5 else if k = 4 then 7 else 0

/-- z(k), the zero-fill bits of its last character (R103). -/
def tailZeros (k : Nat) : Nat := if k = 1 then 2 else if k = 2 then 4 else if k = 3 then 1 else if k = 4 then 3 else 0

/-- p(k), the padding characters under P = 1 (R103). -/
def tailPads (k : Nat) : Nat := if k = 1 then 6 else if k = 2 then 4 else if k = 3 then 3 else if k = 4 then 1 else 0

/-- b(r), the bytes of a partial group of r characters (R142). -/
def tailBytes (r : Nat) : Nat := if r = 2 then 1 else if r = 4 then 2 else if r = 5 then 3 else if r = 7 then 4 else 0

/-- The 5 bytes of a group of 8 digits (R149). -/
def group5 (d0 d1 d2 d3 d4 d5 d6 d7 : Digit) : List Byte :=
  [d0.extractLsb' 0 5 ++ d1.extractLsb' 2 3,
   d1.extractLsb' 0 2 ++ d2.extractLsb' 0 5 ++ d3.extractLsb' 4 1,
   d3.extractLsb' 0 4 ++ d4.extractLsb' 1 4,
   d4.extractLsb' 0 1 ++ d5.extractLsb' 0 5 ++ d6.extractLsb' 3 2,
   d6.extractLsb' 0 3 ++ d7.extractLsb' 0 5]

/-- The group view of DECODE (R149): the bytes of the digits of a payload, or none where a leftover bit
of the final partial group is set. Payload remainders 1, 3 and 6 have no bytes. -/
def decodeGroups : List Digit → Option (List Byte)
  | d0 :: d1 :: d2 :: d3 :: d4 :: d5 :: d6 :: d7 :: rest =>
    (decodeGroups rest).map (group5 d0 d1 d2 d3 d4 d5 d6 d7 ++ ·)
  | [d0, d1, d2, d3, d4, d5, d6] =>
    if d6.extractLsb' 0 3 = 0#3 then some ((group5 d0 d1 d2 d3 d4 d5 d6 0#5).take 4) else none
  | [d0, d1, d2, d3, d4] =>
    if d4.extractLsb' 0 1 = 0#1 then some ((group5 d0 d1 d2 d3 d4 0#5 0#5 0#5).take 3) else none
  | [d0, d1, d2, d3] =>
    if d3.extractLsb' 0 4 = 0#4 then some ((group5 d0 d1 d2 d3 0#5 0#5 0#5 0#5).take 2) else none
  | [d0, d1] =>
    if d1.extractLsb' 0 2 = 0#2 then some ((group5 d0 d1 0#5 0#5 0#5 0#5 0#5 0#5).take 1) else none
  | [] => some []
  | _ => none

/-- The longest run of '=' that ends at the last code unit (R132). -/
def padRun (text : List Byte) : Nat := (text.reverse.takeWhile (· = padChar)).length

/-- The payload length L (R133, R134). -/
def payloadLen (p : Bool) (text : List Byte) : Nat :=
  if p = true then text.length - padRun text else text.length

/-- The text passes phase 1 (R131 to R135). -/
abbrev phase1Ok (p : Bool) (text : List Byte) : Prop :=
  (p = true → text.length % 8 = 0 ∧ padRun text ≤ 7) ∧
    payloadLen p text % 8 ≠ 1 ∧ payloadLen p text % 8 ≠ 3 ∧ payloadLen p text % 8 ≠ 6

/-- A hex digit as R67 writes it: '0'..'9' or 'A'..'F'. -/
def hexChar (v : Nat) : Char := if v < 10 then Char.ofNat (0x30 + v) else Char.ofNat (0x41 + (v - 10))

/-- A byte written `<hh>` (R67). -/
def hexText (b : Byte) : List Char := [hexChar (b.toNat / 16), hexChar (b.toNat % 16)]

/-- Bytes written `<hh> <hh> ...` (R67). -/
def hexListText : List Byte → List Char
  | [] => []
  | [b] => hexText b
  | b :: rest => hexText b ++ [' '] ++ hexListText rest

/-! ### What the statements say of a state and of an outcome -/

/-- The state has an accepted command's input: N is its length, IN holds it (R41, R194), and the host has
changed no byte of it (R195). -/
def Holds (s : State) (bs : List Byte) : Prop :=
  s.n = bs.length ∧ s.input = Memory.ofBytes bs ∧ s.changed = []

/-- The outcome is a next state, in IDLE, whose response is status `st` and output `bs` (R29, R175,
R176). -/
def Responds (o : Host.Outcome State Fault Refusal) (st : StatusWord) (bs : List Byte) : Prop :=
  ∃ t, o = .next t ∧ t.phase = .idle ∧ t.response = ⟨st, bs.length, bs⟩

/-- The block is IDLE with the command `c` at its port, and the host has nothing else pending: the next
step is about `c`. -/
def Presented (s : State) (c : Command) : Prop :=
  s.phase = .idle ∧ s.hostActions = [] ∧ s.port = some c

/-- Everything of the state that no command writes: the configuration, CMD and N (written at acceptance
only, R23), IN (R41), the port, the host's pending actions, the host's changes and the draw counter. -/
def SameOutside (s t : State) : Prop :=
  t.cfg = s.cfg ∧ t.cmd = s.cmd ∧ t.n = s.n ∧ t.input = s.input ∧ t.port = s.port ∧
    t.hostActions = s.hostActions ∧ t.changed = s.changed ∧ t.draws = s.draws

end Sys2Proof.Spec

open Sys2Proof.Spec

/-! ### Reset and the invariant -/

/-- R34, R190: what reset gives a value. -/
def Obligations.ResetStateIsIdleWithNoResponse : Prop :=
  State.reset.phase = .idle ∧ State.reset.response = ⟨0#2, 0, []⟩

/-- R190, R191: reset in any phase gives PHASE, STATUS, OUTLEN and OUT their reset values, whatever the response
before was, and abandons a running command: with nothing else presented there is no response later either. That
the host's other actions stay pending and a held command stays at the port is the model's choice (logs 5 and 9). -/
def Obligations.ResetAbandonsRunningCommand : Prop :=
  ∀ (s : State) (rest : List HostAction), s.hostActions = .reset :: rest →
    ∃ t, step s = .next t ∧ t.phase = .idle ∧ t.response = ⟨0#2, 0, []⟩ ∧ t.hostActions = rest ∧
      t.port = s.port ∧ (rest = [] → s.port = none → step t = .next t)

/-- The invariant of Safety.lean holds at reset. -/
def Obligations.ResetStateIsSound : Prop := State.reset.Inv

/-- Every step keeps the invariant (R24 to R29, R41, R42, R102 to R107, R131 to R142), whatever the host
does between internal steps. -/
def Obligations.StepKeepsSoundness : Prop :=
  ∀ s t : State, s.Inv → step s = .next t → t.Inv

/-- R170, R198: from a sound state no step stops; no command hangs and no outcome is fatal. -/
def Obligations.SoundStateStepAnswersNext : Prop := ∀ s : State, s.Inv → stepSafe s

/-- R24: from its acceptance on, K never exceeds 8 * ceil(N / 5) for ENCODE, nor floor(5 * N / 8) for
DECODE. -/
def Obligations.OutputCountIsBounded : Prop :=
  ∀ (s t : State) (c : Command) (i : Instr) (k : Nat), Presented s c → decodeWord c.cmd = .ok i →
    s.cfg.accepts c.n = true → blockSteps (k + 1) s = .next t →
    t.k ≤ (match i with | .enc _ => 8 * ((c.n + 4) / 5) | .dec _ => 5 * c.n / 8)

/-! ### Command words -/

/-- Decoding a command's bytes gives it back, for every command and whatever follows. -/
def Obligations.DecodeOfEncodeIsTheCommand : Prop :=
  ∀ (i : Instr) (rest : List Byte), i.wf = true → decode (encode i ++ rest) = .ok (i, rest)

/-- R63 in match and mask form: ENCODE matches (CMD & 0xFB) = 0x00, DECODE (CMD & 0xFB) = 0x01, P is bit
2, and every other word is reserved. -/
def Obligations.CommandMapMatchesMask : Prop :=
  ∀ (w : Byte) (p : Bool),
    (decodeWord w = .ok (.enc p) ↔ w &&& 0xFB#8 = 0x00#8 ∧ p = w.getLsbD 2) ∧
    (decodeWord w = .ok (.dec p) ↔ w &&& 0xFB#8 = 0x01#8 ∧ p = w.getLsbD 2) ∧
    ((∃ e, decodeWord w = .error e) ↔ w &&& 0xFB#8 ≠ 0x00#8 ∧ w &&& 0xFB#8 ≠ 0x01#8)

/-- R63: the words of its table, written out. -/
def Obligations.TableWordsDecode : Prop :=
  decodeTableWord 8 0b00000000 = some (.enc false) ∧ decodeTableWord 8 0b00000100 = some (.enc true) ∧
  decodeTableWord 8 0b00000001 = some (.dec false) ∧ decodeTableWord 8 0b00000101 = some (.dec true) ∧
  decodeTableWord 8 0b00000010 = none ∧ decodeTableWord 8 0b00000111 = none ∧
  decodeTableWord 8 0b00001000 = none ∧ decodeTableWord 8 0b11111101 = none

/-! ### The command port -/

/-- R194: a step of an IDLE block with an acceptable command at its port is that command's meaning, on the
state in which CMD and N are latched, IN is bound and the port is free. -/
def Obligations.StepRunsTheCommandAtThePort : Prop :=
  ∀ (s : State) (c : Command) (i : Instr), Presented s c → decodeWord c.cmd = .ok i →
    (∀ m, s.cfg.nMax = some m → c.n ≤ m) →
    step s = exec i { s with
      cmd := c.cmd, n := c.input.length, port := none, input := Memory.ofBytes c.input, changed := [] }

/-- The placing of a table word: the very next step runs the command it decodes to, on an empty input. -/
def Obligations.StepRunsThePlacedWord : Prop :=
  ∀ (s : State) (w : Nat) (i : Instr), decodeTableWord 8 w = some i →
    step (s.withFetchWord 8 w) = exec i { s with
      phase := .idle, hostActions := [], cmd := BitVec.ofNat 8 w, n := 0, port := none, input := [],
      changed := [] }

/-- R172: a reserved OP, a set RSV bit or n > N_MAX gives STATUS = 3, OUTLEN = 0 and OUT empty, and writes no
other register but CMD and N. Nothing is staged in the result, as in every sound IDLE state. -/
def Obligations.BadCommandIsRefusedUntouched : Prop :=
  ∀ (s : State) (c : Command), Presented s c →
    (opField c.cmd = 2#2 ∨ opField c.cmd = 3#2 ∨ rsvField c.cmd ≠ 0#5 ∨
      ∃ m, s.cfg.nMax = some m ∧ m < c.n) →
    step s = .next { s with
      cmd := c.cmd, n := c.n, port := none, status := 3#2, outLen := 0, out := [], staging := [] }

/-- R185: IDLE is left only when a command is accepted, and all state survives IDLE. -/
def Obligations.IdleBlockWaits : Prop :=
  ∀ s : State, s.phase = .idle → s.hostActions = [] → s.port = none → step s = .next s

/-- R170: every command at the port ends, after finitely many internal steps, in exactly one outcome, OK,
INVALID_ENCODING or BAD_COMMAND, with the block IDLE again and its port free. -/
def Obligations.EveryCommandEndsInOneOutcome : Prop :=
  ∀ (s : State) (c : Command), Presented s c →
    ∃ t, step s = .next t ∧ (∃ k, blockSteps k s = .next t) ∧ t.phase = .idle ∧ t.port = none ∧
      (t.status = 1#2 ∨ t.status = 2#2 ∨ t.status = 3#2)

/-- R186: INVALID_ENCODING after a command means the command was a DECODE. -/
def Obligations.InvalidEncodingMeansDecode : Prop :=
  ∀ (s t : State) (c : Command), Presented s c → step s = .next t → t.status = 2#2 →
    ∃ p, decodeWord c.cmd = .ok (.dec p)

/-- R200: the response is a function of (CMD, n, IN) alone, for blocks of one N_MAX: nothing else of the two
states before, registers and earlier responses included, changes it. -/
def Obligations.ResponseDependsOnTheCommandOnly : Prop :=
  ∀ (s s' : State) (c : Command), Presented s c → Presented s' c → s.cfg.nMax = s'.cfg.nMax →
    ∃ t t', step s = .next t ∧ step s' = .next t' ∧ t.response = t'.response

/-- R29, R147, R176: a command that does not succeed exposes no output. -/
def Obligations.FailureExposesNoOutput : Prop :=
  ∀ (s t : State) (c : Command), Presented s c → step s = .next t → t.status ≠ 1#2 →
    t.outLen = 0 ∧ t.out = []

/-! ### Internal steps and the host between them -/

/-- The internal steps that R198 allows the command `c` in a block with configuration `cfg`: the sum of its row,
n loads, ceil(8n / 5) emissions, 1 tail and 7 padding characters for ENCODE, 8 trailing reads, n characters and
1 final step for DECODE, none for a refused command. -/
def Sys2Proof.Spec.commandBound (cfg : Config) (c : Command) : Nat :=
  match decodeWord c.cmd with
  | .error _ => 0
  | .ok i =>
    if cfg.accepts c.n = true then
      match i with
      | .enc _ => c.n + (8 * c.n + 4) / 5 + 1 + 7
      | .dec _ => 8 + c.n + 1
    else 0

/-- R199: running the command at the port as one transition gives the state that the internal steps give, one by
one, within that command's bound of R198. Acceptance counts as one internal step before them: that split is the
model's (log 6). -/
def Obligations.CommandStepIsItsInternalSteps : Prop :=
  ∀ (s : State) (c : Command), Presented s c →
    ∃ k, k ≤ 1 + commandBound s.cfg c ∧ blockSteps k s = step s

/-- R196, R45: STATUS, OUTLEN and OUT change only at a completion (of the running command, or of one taken from
the port) or at reset. While the block is busy the host reads the response from before. -/
def Obligations.ResponseChangesOnlyAtCompletion : Prop :=
  ∀ s t : State, step s = .next t →
    (t.phase ≠ .idle → t.response = s.response) ∧
    (t.response ≠ s.response → t.phase = .idle ∧
      (s.phase ≠ .idle ∨ s.port ≠ none ∨ s.hostActions.head? = some .reset))

/-- R175, R176: the internal step that completes a command writes STATUS, OUTLEN and OUT together: OK with the
staged bytes, all K of them and in order, or INVALID_ENCODING with none. -/
def Obligations.CompletionCommitsTheStagedBytes : Prop :=
  ∀ s t : State, s.Inv → s.phase ≠ .idle → blockStep s = .next t → t.phase = .idle →
    (t.status = 1#2 ∧ t.outLen = t.k ∧ t.out.length = t.k ∧ s.k ≤ t.k ∧
      t.out.take s.k = s.staging.map Prod.snd) ∨
    (t.status = 2#2 ∧ t.outLen = 0 ∧ t.out = [])

/-- R194: a command presented while the block is busy stays at the port, unchanged, until the block is IDLE and
takes it. -/
def Obligations.BusyBlockHoldsThePort : Prop :=
  ∀ s t : State, s.phase ≠ .idle → blockStep s = .next t → t.port = s.port

/-- R194: the port holds one command; a host that presents another waits, and its command is neither dropped
nor merged. -/
def Obligations.SecondCommandWaitsForThePort : Prop :=
  ∀ (s t : State) (c d : Command) (rest : List HostAction),
    s.hostActions = .present c :: rest → s.port = some d → step s = .next t →
    t.hostActions = .present c :: rest ∧ (t.port = some d ∨ (t.port = none ∧ t.cmd = d.cmd ∧ t.n = d.n))

/-- R41: the block never writes IN. Between its steps only the host's next command or reset replaces it. -/
def Obligations.BlockNeverWritesInput : Prop :=
  ∀ s t : State, s.phase ≠ .idle → blockStep s = .next t → t.input = s.input

/-- R42: while a command runs, an internal step stages nothing, or one byte at offset K, with K one more
after it. -/
def Obligations.OutputIsStagedInOrder : Prop :=
  ∀ s t : State, s.Inv → s.phase ≠ .idle → blockStep s = .next t → t.phase ≠ .idle →
    (t.staging = s.staging ∧ t.k = s.k) ∨
      (∃ v, t.staging = s.staging ++ [(s.k, v)] ∧ t.k = s.k + 1)

/-- R25: I only increases, by one per read of the per-element loops: a step in E_LOAD or D_CHAR reads the element
at offset I and adds one to I, and a step in any other busy phase leaves I. -/
def Obligations.InputOffsetGoesUpByOne : Prop :=
  ∀ s t : State, blockStep s = .next t →
    ((s.phase = .eLoad ∨ s.phase = .dChar) → (∃ b, s.input.read s.i = some b) ∧ t.i = s.i + 1) ∧
    (s.phase ≠ .idle → s.phase ≠ .eLoad → s.phase ≠ .dChar → t.i = s.i)

/-- R48, R195 for ENCODE, with the host's changes made before its first internal step: the response is the one the rules give for
some input that differs from the bound one only where the host changed it, whatever the free draws are. -/
def Obligations.DisturbedEncodeRespondsForSomeInput : Prop :=
  ∀ (p : Bool) (s : State) (bs : List Byte), s.n = bs.length → s.input = Memory.ofBytes bs →
    ∃ bs' : List Byte, bs'.length = bs.length ∧ (∀ j, j ∉ s.changed → bs'[j]? = bs[j]?) ∧
      Responds (exec (.enc p) s) 1#2 (encodeText p bs')

/-- R48, R195 for DECODE, with the host's changes made before its first internal step. -/
def Obligations.DisturbedDecodeRespondsForSomeInput : Prop :=
  ∀ (p : Bool) (s : State) (text : List Byte), s.n = text.length → s.input = Memory.ofBytes text →
    ∃ text' : List Byte, text'.length = text.length ∧ (∀ j, j ∉ s.changed → text'[j]? = text[j]?) ∧
      ∃ t u, exec (.dec p) s = .next t ∧
        exec (.dec p) { s with input := Memory.ofBytes text', changed := [] } = .next u ∧
        t.response = u.response

/-- The host's actions only let the block step and change bytes of IN. -/
def Sys2Proof.Spec.PulsesAndChanges (acts : List HostAction) : Prop :=
  ∀ a ∈ acts, a = .pulse ∨ ∃ offset, a = .disturb offset

/-- R195 for ENCODE, with changes landing at any time: the host presents ENCODE, and lets the block make internal
steps and changes bytes of IN in any order, before, between and after the steps; then the command is run to its
completion. The response is the one the rules give for some input that differs from the one presented only at
offsets that were changed between acceptance and completion (`t.changed`), each by one of the host's actions.
The draws and what counts as a change are log 4's, the host's actions log 5's. -/
def Obligations.EncodeChangedWhileRunning : Prop :=
  ∀ (p : Bool) (s : State) (bs : List Byte), s.phase = .idle → s.port = some ⟨encodeWord (.enc p), bs⟩ →
    s.cfg.accepts bs.length = true → PulsesAndChanges s.hostActions →
    ∃ (t : State) (bs' : List Byte), Sys2Proof.core.run (s.hostActions.length + 1) s = .next t ∧
      t.phase = .idle ∧ (∀ j ∈ t.changed, .disturb j ∈ s.hostActions) ∧ bs'.length = bs.length ∧
      (∀ j, j ∉ t.changed → bs'[j]? = bs[j]?) ∧
      t.response = ⟨1#2, (encodeText p bs').length, encodeText p bs'⟩

/-- R195 for DECODE, with changes landing at any time, as for ENCODE: the response is the one DECODE gives for some
text that differs from the one presented only at offsets changed between acceptance and completion. -/
def Obligations.DecodeChangedWhileRunning : Prop :=
  ∀ (p : Bool) (s : State) (text : List Byte), s.phase = .idle →
    s.port = some ⟨encodeWord (.dec p), text⟩ → s.cfg.accepts text.length = true →
    PulsesAndChanges s.hostActions →
    ∃ (t u : State) (text' : List Byte), Sys2Proof.core.run (s.hostActions.length + 1) s = .next t ∧
      t.phase = .idle ∧ (∀ j ∈ t.changed, .disturb j ∈ s.hostActions) ∧ text'.length = text.length ∧
      (∀ j, j ∉ t.changed → text'[j]? = text[j]?) ∧
      step { s with hostActions := [], port := some ⟨encodeWord (.dec p), text'⟩ } = .next u ∧
      t.response = u.response

/-! ### The lookup tables -/

/-- R81, R82: the digits 0..25 give 'A'..'Z' and 26..31 give '2'..'7', the 32 results are distinct, they are
exactly the codes 0x32..0x37 and 0x41..0x5A, and none is '='. -/
def Obligations.AlphaIsTheAlphabet : Prop :=
  (∀ d : Digit, alpha d = if d.toNat ≤ 25 then BitVec.ofNat 8 (0x41 + d.toNat)
    else BitVec.ofNat 8 (0x32 + (d.toNat - 26))) ∧
  (∀ d e : Digit, alpha d = alpha e → d = e) ∧
  (∀ c : Byte, (∃ d, alpha d = c) ↔
    (0x32 ≤ c.toNat ∧ c.toNat ≤ 0x37) ∨ (0x41 ≤ c.toNat ∧ c.toNat ≤ 0x5A)) ∧
  (∀ d : Digit, alpha d ≠ 0x3D#8)

/-- R85: the two maps are inverse on the alphabet, and exactly 32 of the 256 code units have a digit. -/
def Obligations.LookupsAreInverse : Prop :=
  (∀ d : Digit, rev (alpha d) = some d) ∧
  (∀ (c : Byte) (d : Digit), rev c = some d → alpha d = c) ∧
  ((List.range 256).filter fun c => (rev (BitVec.ofNat 8 c)).isSome).length = 32

/-- R86: the codes REV maps to INVALID: below 0x32, the gap 0x38..0x40 with '=' in it, lower case, and 0x5B and
above. -/
def Obligations.CodesOutsideTheAlphabetAreInvalid : Prop :=
  ∀ c : Byte, (c.toNat < 0x32 ∨ (0x38 ≤ c.toNat ∧ c.toNat ≤ 0x40) ∨
    (0x61 ≤ c.toNat ∧ c.toNat ≤ 0x7A) ∨ 0x5B ≤ c.toNat) → rev c = none

/-! ### ENCODE -/

/-- R101: ENCODE completes OK, and its output is the closed form: the bit stream cut into 5-bit digits, the last
completed with zero bits, through ALPHA; with P = 1 padded to a multiple of 8. -/
def Obligations.EncodeOutputIsTheClosedForm : Prop :=
  ∀ (p : Bool) (s : State) (bs : List Byte), Holds s bs →
    Responds (exec (.enc p) s) 1#2 (encodeText p bs)

/-- R114: the accumulator of R100 and the dispatch on the tail case give the same output. -/
def Obligations.EncodeEqualsTheTailDispatch : Prop :=
  ∀ (p : Bool) (s : State) (bs : List Byte), Holds s bs →
    Responds (exec (.enc p) s) 1#2 (encodeDispatch p bs)

/-- R102: the output length under each policy. -/
def Obligations.EncodeOutputLength : Prop :=
  ∀ (p : Bool) (s : State) (bs : List Byte), Holds s bs →
    ∃ t, exec (.enc p) s = .next t ∧
      (p = false → t.outLen = (8 * bs.length + 4) / 5) ∧
      (p = true → t.outLen = charCount bs.length + padCount bs.length ∧
        t.outLen = 8 * ((bs.length + 4) / 5))

/-- R103: the tail table: with n = 5q + k the first 5q bytes give 8q characters, the others c(k) more, the last one
ending in z(k) zero bits, and P = 1 adds p(k) characters '='. -/
def Obligations.EncodeTailTable : Prop :=
  ∀ (p : Bool) (s : State) (bs : List Byte) (q k : Nat), Holds s bs → bs.length = 5 * q + k → k < 5 →
    ∃ t chars, exec (.enc p) s = .next t ∧ t.out = chars ++ padTail p (tailPads k) ∧
      chars.length = 8 * q + tailChars k ∧ chars.length % 8 = tailChars k ∧ padChar ∉ chars ∧
      chars.take (8 * q) = encodeChars (bs.take (5 * q)) ∧
      (∀ d, k ≠ 0 → chars.getLast? = some (alpha d) → d.toNat % 2 ^ tailZeros k = 0)

/-- R109: the empty input gives the empty output, OK, under both policies, with nothing read: I is 0 and no free
draw is made. -/
def Obligations.EncodeOfEmptyIsEmpty : Prop :=
  ∀ (p : Bool) (s : State), s.n = 0 →
    ∃ t, exec (.enc p) s = .next t ∧ t.phase = .idle ∧ t.response = ⟨1#2, 0, []⟩ ∧ t.i = 0 ∧
      t.draws = s.draws

/-- R110: the output of ENC is the output of ENC.P with its trailing '=' removed. -/
def Obligations.EncodePaddingIndependence : Prop :=
  ∀ (s : State) (bs : List Byte), Holds s bs →
    ∃ t u, exec (.enc false) s = .next t ∧ exec (.enc true) s = .next u ∧
      t.out = (u.out.reverse.dropWhile (· = padChar)).reverse

/-- R111: every byte of the output is one of the 32 alphabet codes, or '=' in the padded suffix, and the last
character before the padding has its z(k) low bits 0; the status is OK. -/
def Obligations.EncodeOutputClosure : Prop :=
  ∀ (p : Bool) (s : State) (bs : List Byte), Holds s bs →
    ∃ t chars j, exec (.enc p) s = .next t ∧ t.status = 1#2 ∧
      t.out = chars ++ List.replicate j padChar ∧ (p = false → j = 0) ∧
      (∀ c ∈ chars, ∃ d, alpha d = c) ∧
      ∀ d, chars.getLast? = some (alpha d) → d.toNat % 2 ^ tailZeros (bs.length % 5) = 0

/-- ENCODE's frame: what it leaves unchanged (IN and with it every byte of memory, CMD, N, T, L and all that is
outside the block), and what its own registers hold at completion (R24, R106, R112). -/
def Obligations.EncodeFrame : Prop :=
  ∀ (p : Bool) (s t : State) (bs : List Byte), Holds s bs → exec (.enc p) s = .next t →
    SameOutside s t ∧ t.t = s.t ∧ t.l = s.l ∧ t.i = s.n ∧ t.k = t.outLen ∧ t.nb = 0#4 ∧
      ∀ a, t.input.read a = s.input.read a

/-! ### DECODE -/

/-- R146: DECODE completes OK with output b exactly on the text that ENCODE makes of b under the same policy;
every other text fails with INVALID_ENCODING. The texts both policies accept are the encodings of byte
sequences whose length is a multiple of 5, the accepted texts with no '='. -/
def Obligations.DecodeAcceptsExactlyTheEncodings : Prop :=
  (∀ (p : Bool) (s : State) (text : List Byte), Holds s text →
    ((∃ b, text = encodeText p b ∧ Responds (exec (.dec p) s) 1#2 b) ∨
      ((∀ b, text ≠ encodeText p b) ∧ Responds (exec (.dec p) s) 2#2 []))) ∧
  (∀ p : Bool, ∀ b b', encodeText p b = encodeText p b' → b = b') ∧
  (∀ text : List Byte, ((∃ b, text = encodeText false b) ∧ (∃ b, text = encodeText true b)) ↔
    ∃ b, b.length % 5 = 0 ∧ text = encodeText false b) ∧
  (∀ text b, text = encodeText true b → (b.length % 5 = 0 ↔ padChar ∉ text))

/-- R145: the round trip on the machine itself: present the bytes to ENCODE, then its output to DECODE under the
same policy; DECODE completes OK with the bytes. -/
def Obligations.RoundTripThroughTheMachine : Prop :=
  ∀ (p : Bool) (s : State) (b : List Byte), Presented s ⟨encodeWord (.enc p), b⟩ →
    s.cfg.accepts b.length = true → s.cfg.accepts (8 * ((b.length + 4) / 5)) = true →
    ∃ t u, step s = .next t ∧ step (t.present ⟨encodeWord (.dec p), t.out⟩) = .next u ∧
      u.phase = .idle ∧ u.status = 1#2 ∧ u.outLen = b.length ∧ u.out = b

/-- R149: with a payload of digits that passes phase 1, DECODE gives the bytes of the group view, or
INVALID_ENCODING where a leftover bit of the final partial group is set. -/
def Obligations.DecodeEqualsTheGroupView : Prop :=
  ∀ (p : Bool) (s : State) (text : List Byte) (ds : List Digit), Holds s text → phase1Ok p text →
    text.take (payloadLen p text) = ds.map alpha →
    match decodeGroups ds with
    | some b => Responds (exec (.dec p) s) 1#2 b
    | none => Responds (exec (.dec p) s) 2#2 []

/-- R131: under P = 1 a length that is no multiple of 8 fails (LENGTH) before any byte is read: the next state is
written out. The empty text passes this check. -/
def Obligations.DecodeLengthCheck : Prop :=
  (∀ s : State, s.n % 8 ≠ 0 →
    exec (.dec true) s = .next { s with
      k := 0, i := 0, acc := 0#12, nb := 0#4, staging := [], status := 2#2, outLen := 0, out := [],
      phase := .idle }) ∧
  (∀ s : State, s.n = 0 → Responds (exec (.dec true) s) 1#2 [])

/-- R132: under P = 1, T is the length of the trailing run of '=', counted up to 8; T > 7 fails. -/
def Obligations.DecodePaddingRun : Prop :=
  ∀ (s : State) (text : List Byte), Holds s text → text.length % 8 = 0 →
    ∃ t, exec (.dec true) s = .next t ∧ t.t.toNat = min 8 (padRun text) ∧
      (7 < padRun text → t.response = ⟨2#2, 0, []⟩)

/-- R133, R134: L is N - T under P = 1, and N under P = 0, where phase 1 gets so far. -/
def Obligations.DecodePayloadLength : Prop :=
  (∀ (s : State) (text : List Byte), Holds s text → text.length % 8 = 0 → padRun text ≤ 7 →
    ∃ t, exec (.dec true) s = .next t ∧ t.l = text.length - padRun text ∧
      t.l % 8 = (8 - padRun text) % 8) ∧
  (∀ (s : State) (text : List Byte), Holds s text →
    ∃ t, exec (.dec false) s = .next t ∧ t.l = text.length)

/-- R135, R136: a payload of 1, 3 or 6 characters beyond its full groups fails (REMAINDER), with no character
interpreted: I is still 0. (Under P = 1 the padding count has read trailing code units by then, R132.) -/
def Obligations.DecodeForbiddenRemainder : Prop :=
  ∀ (p : Bool) (s : State) (text : List Byte), Holds s text →
    (p = true → text.length % 8 = 0 ∧ padRun text ≤ 7) →
    (payloadLen p text % 8 = 1 ∨ payloadLen p text % 8 = 3 ∨ payloadLen p text % 8 = 6) →
    ∃ t, exec (.dec p) s = .next t ∧ t.phase = .idle ∧ t.response = ⟨2#2, 0, []⟩ ∧ t.i = 0

/-- R137: after phase 1, the first payload code unit with no digit fails the command (CHAR), and the rest of the
payload is not read: I is one past it. -/
def Obligations.DecodeInvalidCharacter : Prop :=
  ∀ (p : Bool) (s : State) (text : List Byte) (j : Nat) (c : Byte), Holds s text → phase1Ok p text →
    j < payloadLen p text → text[j]? = some c → rev c = none →
    (∀ k, k < j → ∃ d v, text[k]? = some d ∧ rev d = some v) →
    ∃ t, exec (.dec p) s = .next t ∧ t.phase = .idle ∧ t.response = ⟨2#2, 0, []⟩ ∧ t.i = j + 1

/-- R138: '=' has no digit, and anywhere in the payload it fails the command; under P = 0 every '=' does. -/
def Obligations.DecodePaddingInPayloadFails : Prop :=
  rev 0x3D#8 = none ∧
  (∀ (p : Bool) (s : State) (text : List Byte) (j : Nat), Holds s text →
    j < payloadLen p text → text[j]? = some 0x3D#8 → Responds (exec (.dec p) s) 2#2 []) ∧
  (∀ (s : State) (text : List Byte), Holds s text → 0x3D#8 ∈ text →
    Responds (exec (.dec false) s) 2#2 [])

/-- R141: after a payload of digits NB is 5L mod 8, the encoder's z(k), and the command fails (TAIL_BITS) exactly if
the low NB bits of the last payload digit are not all zero; they are never emitted as a byte. -/
def Obligations.DecodeTailBits : Prop :=
  ∀ (p : Bool) (s : State) (text : List Byte) (ds : List Digit) (last : Digit), Holds s text →
    phase1Ok p text → text.take (payloadLen p text) = (ds ++ [last]).map alpha →
    ∃ t, exec (.dec p) s = .next t ∧ t.nb.toNat = 5 * payloadLen p text % 8 ∧
      t.nb.toNat = tailZeros (tailBytes (payloadLen p text % 8)) ∧
      t.status = (if last.toNat % 2 ^ t.nb.toNat ≠ 0 then 2#2 else 1#2) ∧
      (t.status = 1#2 → t.out.length = 5 * payloadLen p text / 8)

/-- R142: the output length on success. -/
def Obligations.DecodeOutputLength : Prop :=
  ∀ (p : Bool) (s t : State) (text : List Byte), Holds s text → exec (.dec p) s = .next t →
    t.status = 1#2 →
    t.outLen = 5 * payloadLen p text / 8 ∧
      t.outLen = 5 * (payloadLen p text / 8) + tailBytes (payloadLen p text % 8)

/-- R143: the empty text decodes to the empty sequence, OK, under both policies. -/
def Obligations.DecodeOfEmptyIsEmpty : Prop :=
  ∀ (p : Bool) (s : State), s.n = 0 → Responds (exec (.dec p) s) 1#2 []

/-- R144: a non-empty text of '=' only fails under both policies. -/
def Obligations.DecodeAllPaddingFails : Prop :=
  ∀ (p : Bool) (s : State) (m : Nat), Holds s (List.replicate (m + 1) padChar) →
    Responds (exec (.dec p) s) 2#2 []

/-- R148: the lengths that never decode: under P = 0 those with n mod 8 in {1, 3, 6}; under P = 1 those that are no
multiple of 8, and the multiples of 8 with T in {2, 5, 7}. -/
def Obligations.DecodeForbiddenLengths : Prop :=
  ∀ (s : State) (text : List Byte), Holds s text →
    ((text.length % 8 = 1 ∨ text.length % 8 = 3 ∨ text.length % 8 = 6) →
      Responds (exec (.dec false) s) 2#2 []) ∧
    (text.length % 8 ≠ 0 → Responds (exec (.dec true) s) 2#2 []) ∧
    (text.length % 8 = 0 → (padRun text = 2 ∨ padRun text = 5 ∨ padRun text = 7) →
      Responds (exec (.dec true) s) 2#2 [])

/-- DECODE's frame: it always completes, OK or INVALID_ENCODING, and leaves unchanged IN and with it every byte of
memory, CMD, N, under P = 0 also T, and all that is outside the block. -/
def Obligations.DecodeCompletesWithItsFrame : Prop :=
  ∀ (p : Bool) (s : State) (text : List Byte), Holds s text →
    ∃ t, exec (.dec p) s = .next t ∧ t.phase = .idle ∧ (t.status = 1#2 ∨ t.status = 2#2) ∧
      (t.status = 1#2 → t.outLen = t.k) ∧ SameOutside s t ∧ (p = false → t.t = s.t) ∧
      ∀ a, t.input.read a = s.input.read a

/-! ### The command syntax -/

/-- R67: a line of a mnemonic and a quoted ASCII string assembles to the mnemonic's word and the string's
codes. -/
def Obligations.QuotedLineAssembles : Prop :=
  ∀ (i : Instr) (text : List Char), (∀ c ∈ text, c ≠ '"' ∧ c.toNat < 128) →
    parseLine ((match i with
        | .enc false => ['E', 'N', 'C']
        | .enc true => ['E', 'N', 'C', '.', 'P']
        | .dec false => ['D', 'E', 'C']
        | .dec true => ['D', 'E', 'C', '.', 'P']) ++ [' ', '"'] ++ text ++ ['"']) =
      .ok (some ⟨encodeWord i, text.map fun c => BitVec.ofNat 8 c.toNat⟩)

/-- The text of a command word's mnemonic: ENC, ENC.P, DEC, DEC.P, or for any word CMD 0x<hh> (R67; that the last
form may carry a word that is not reserved is the model's choice, log 21). -/
inductive Sys2Proof.Spec.MnemonicText : List Char → Byte → Prop where
  | enc : MnemonicText ['E', 'N', 'C'] 0x00#8
  | encP : MnemonicText ['E', 'N', 'C', '.', 'P'] 0x04#8
  | dec : MnemonicText ['D', 'E', 'C'] 0x01#8
  | decP : MnemonicText ['D', 'E', 'C', '.', 'P'] 0x05#8
  | cmd (w : Byte) : MnemonicText (['C', 'M', 'D', ' ', '0', 'x'] ++ hexText w) w

/-- The text of an input: a quoted ASCII string, or a list of hex bytes with a space between two of them (R67). -/
inductive Sys2Proof.Spec.InputText : List Char → List Byte → Prop where
  | quoted (text : List Char) (h : ∀ c ∈ text, c ≠ '"' ∧ c.toNat < 128) :
      InputText (['"'] ++ text ++ ['"']) (text.map fun c => BitVec.ofNat 8 c.toNat)
  | hex (bs : List Byte) : InputText (['x', '"'] ++ hexListText bs ++ ['"']) bs

/-- R67: a line `<mnemonic> <input>`, alone or followed by spaces and a comment, assembles to the mnemonic's word
and the input's bytes, for every form of both; a comment alone is no command. The spaces before a comment, and
CMD with a word that is not reserved, are the model's choice (log 21). -/
def Obligations.EveryLineFormAssembles : Prop :=
  (∀ (m op : List Char) (w : Byte) (bs : List Byte) (spaces : Nat) (comment : List Char),
    MnemonicText m w → InputText op bs →
    parseLine (m ++ [' '] ++ op) = .ok (some ⟨w, bs⟩) ∧
    parseLine (m ++ [' '] ++ op ++ List.replicate spaces ' ' ++ [';'] ++ comment) = .ok (some ⟨w, bs⟩)) ∧
  (∀ comment : List Char, parseLine ([';'] ++ comment) = .ok none)
end

