-- ==== Sys2Proof/Laws/State.lean ====
section
/-! SUPPORT. The small lemmas of the state's named updates: what each field is after each update, true by
definition, so that no proof unfolds a record update. -/

namespace Sys2Proof.Machine.State

/-! ### emit -/

@[simp] theorem emit_cfg (v : Byte) (s : State) : (s.emit v).cfg = s.cfg := rfl
@[simp] theorem emit_phase (v : Byte) (s : State) : (s.emit v).phase = s.phase := rfl
@[simp] theorem emit_cmd (v : Byte) (s : State) : (s.emit v).cmd = s.cmd := rfl
@[simp] theorem emit_n (v : Byte) (s : State) : (s.emit v).n = s.n := rfl
@[simp] theorem emit_i (v : Byte) (s : State) : (s.emit v).i = s.i := rfl
@[simp] theorem emit_k (v : Byte) (s : State) : (s.emit v).k = s.k + 1 := rfl
@[simp] theorem emit_t (v : Byte) (s : State) : (s.emit v).t = s.t := rfl
@[simp] theorem emit_l (v : Byte) (s : State) : (s.emit v).l = s.l := rfl
@[simp] theorem emit_acc (v : Byte) (s : State) : (s.emit v).acc = s.acc := rfl
@[simp] theorem emit_nb (v : Byte) (s : State) : (s.emit v).nb = s.nb := rfl
@[simp] theorem emit_status (v : Byte) (s : State) : (s.emit v).status = s.status := rfl
@[simp] theorem emit_outLen (v : Byte) (s : State) : (s.emit v).outLen = s.outLen := rfl
@[simp] theorem emit_out (v : Byte) (s : State) : (s.emit v).out = s.out := rfl
@[simp] theorem emit_input (v : Byte) (s : State) : (s.emit v).input = s.input := rfl
@[simp] theorem emit_staging (v : Byte) (s : State) : (s.emit v).staging = s.staging.write s.k v := rfl
@[simp] theorem emit_port (v : Byte) (s : State) : (s.emit v).port = s.port := rfl
@[simp] theorem emit_hostActions (v : Byte) (s : State) : (s.emit v).hostActions = s.hostActions := rfl
@[simp] theorem emit_changed (v : Byte) (s : State) : (s.emit v).changed = s.changed := rfl
@[simp] theorem emit_draws (v : Byte) (s : State) : (s.emit v).draws = s.draws := rfl

/-! ### completeOk -/

@[simp] theorem completeOk_cfg (s : State) : (s.completeOk).cfg = s.cfg := rfl
@[simp] theorem completeOk_phase (s : State) : (s.completeOk).phase = .idle := rfl
@[simp] theorem completeOk_cmd (s : State) : (s.completeOk).cmd = s.cmd := rfl
@[simp] theorem completeOk_n (s : State) : (s.completeOk).n = s.n := rfl
@[simp] theorem completeOk_i (s : State) : (s.completeOk).i = s.i := rfl
@[simp] theorem completeOk_k (s : State) : (s.completeOk).k = s.k := rfl
@[simp] theorem completeOk_t (s : State) : (s.completeOk).t = s.t := rfl
@[simp] theorem completeOk_l (s : State) : (s.completeOk).l = s.l := rfl
@[simp] theorem completeOk_acc (s : State) : (s.completeOk).acc = s.acc := rfl
@[simp] theorem completeOk_nb (s : State) : (s.completeOk).nb = s.nb := rfl
@[simp] theorem completeOk_status (s : State) : (s.completeOk).status = statusOk := rfl
@[simp] theorem completeOk_outLen (s : State) : (s.completeOk).outLen = s.k := rfl
@[simp] theorem completeOk_out (s : State) : (s.completeOk).out = s.staging.slice s.k := rfl
@[simp] theorem completeOk_input (s : State) : (s.completeOk).input = s.input := rfl
@[simp] theorem completeOk_staging (s : State) : (s.completeOk).staging = [] := rfl
@[simp] theorem completeOk_port (s : State) : (s.completeOk).port = s.port := rfl
@[simp] theorem completeOk_hostActions (s : State) : (s.completeOk).hostActions = s.hostActions := rfl
@[simp] theorem completeOk_changed (s : State) : (s.completeOk).changed = s.changed := rfl
@[simp] theorem completeOk_draws (s : State) : (s.completeOk).draws = s.draws := rfl

/-! ### fail -/

@[simp] theorem fail_cfg (code : StatusWord) (s : State) : (s.fail code).cfg = s.cfg := rfl
@[simp] theorem fail_phase (code : StatusWord) (s : State) : (s.fail code).phase = .idle := rfl
@[simp] theorem fail_cmd (code : StatusWord) (s : State) : (s.fail code).cmd = s.cmd := rfl
@[simp] theorem fail_n (code : StatusWord) (s : State) : (s.fail code).n = s.n := rfl
@[simp] theorem fail_i (code : StatusWord) (s : State) : (s.fail code).i = s.i := rfl
@[simp] theorem fail_k (code : StatusWord) (s : State) : (s.fail code).k = s.k := rfl
@[simp] theorem fail_t (code : StatusWord) (s : State) : (s.fail code).t = s.t := rfl
@[simp] theorem fail_l (code : StatusWord) (s : State) : (s.fail code).l = s.l := rfl
@[simp] theorem fail_acc (code : StatusWord) (s : State) : (s.fail code).acc = s.acc := rfl
@[simp] theorem fail_nb (code : StatusWord) (s : State) : (s.fail code).nb = s.nb := rfl
@[simp] theorem fail_status (code : StatusWord) (s : State) : (s.fail code).status = code := rfl
@[simp] theorem fail_outLen (code : StatusWord) (s : State) : (s.fail code).outLen = 0 := rfl
@[simp] theorem fail_out (code : StatusWord) (s : State) : (s.fail code).out = [] := rfl
@[simp] theorem fail_input (code : StatusWord) (s : State) : (s.fail code).input = s.input := rfl
@[simp] theorem fail_staging (code : StatusWord) (s : State) : (s.fail code).staging = [] := rfl
@[simp] theorem fail_port (code : StatusWord) (s : State) : (s.fail code).port = s.port := rfl
@[simp] theorem fail_hostActions (code : StatusWord) (s : State) : (s.fail code).hostActions = s.hostActions := rfl
@[simp] theorem fail_changed (code : StatusWord) (s : State) : (s.fail code).changed = s.changed := rfl
@[simp] theorem fail_draws (code : StatusWord) (s : State) : (s.fail code).draws = s.draws := rfl

/-! ### latch -/

@[simp] theorem latch_cfg (c : Command) (s : State) : (s.latch c).cfg = s.cfg := rfl
@[simp] theorem latch_phase (c : Command) (s : State) : (s.latch c).phase = s.phase := rfl
@[simp] theorem latch_cmd (c : Command) (s : State) : (s.latch c).cmd = c.cmd := rfl
@[simp] theorem latch_n (c : Command) (s : State) : (s.latch c).n = c.n := rfl
@[simp] theorem latch_i (c : Command) (s : State) : (s.latch c).i = s.i := rfl
@[simp] theorem latch_k (c : Command) (s : State) : (s.latch c).k = s.k := rfl
@[simp] theorem latch_t (c : Command) (s : State) : (s.latch c).t = s.t := rfl
@[simp] theorem latch_l (c : Command) (s : State) : (s.latch c).l = s.l := rfl
@[simp] theorem latch_acc (c : Command) (s : State) : (s.latch c).acc = s.acc := rfl
@[simp] theorem latch_nb (c : Command) (s : State) : (s.latch c).nb = s.nb := rfl
@[simp] theorem latch_status (c : Command) (s : State) : (s.latch c).status = s.status := rfl
@[simp] theorem latch_outLen (c : Command) (s : State) : (s.latch c).outLen = s.outLen := rfl
@[simp] theorem latch_out (c : Command) (s : State) : (s.latch c).out = s.out := rfl
@[simp] theorem latch_input (c : Command) (s : State) : (s.latch c).input = s.input := rfl
@[simp] theorem latch_staging (c : Command) (s : State) : (s.latch c).staging = s.staging := rfl
@[simp] theorem latch_port (c : Command) (s : State) : (s.latch c).port = none := rfl
@[simp] theorem latch_hostActions (c : Command) (s : State) : (s.latch c).hostActions = s.hostActions := rfl
@[simp] theorem latch_changed (c : Command) (s : State) : (s.latch c).changed = s.changed := rfl
@[simp] theorem latch_draws (c : Command) (s : State) : (s.latch c).draws = s.draws := rfl

/-! ### bindInput -/

@[simp] theorem bindInput_cfg (c : Command) (s : State) : (s.bindInput c).cfg = s.cfg := rfl
@[simp] theorem bindInput_phase (c : Command) (s : State) : (s.bindInput c).phase = s.phase := rfl
@[simp] theorem bindInput_cmd (c : Command) (s : State) : (s.bindInput c).cmd = s.cmd := rfl
@[simp] theorem bindInput_n (c : Command) (s : State) : (s.bindInput c).n = s.n := rfl
@[simp] theorem bindInput_i (c : Command) (s : State) : (s.bindInput c).i = s.i := rfl
@[simp] theorem bindInput_k (c : Command) (s : State) : (s.bindInput c).k = s.k := rfl
@[simp] theorem bindInput_t (c : Command) (s : State) : (s.bindInput c).t = s.t := rfl
@[simp] theorem bindInput_l (c : Command) (s : State) : (s.bindInput c).l = s.l := rfl
@[simp] theorem bindInput_acc (c : Command) (s : State) : (s.bindInput c).acc = s.acc := rfl
@[simp] theorem bindInput_nb (c : Command) (s : State) : (s.bindInput c).nb = s.nb := rfl
@[simp] theorem bindInput_status (c : Command) (s : State) : (s.bindInput c).status = s.status := rfl
@[simp] theorem bindInput_outLen (c : Command) (s : State) : (s.bindInput c).outLen = s.outLen := rfl
@[simp] theorem bindInput_out (c : Command) (s : State) : (s.bindInput c).out = s.out := rfl
@[simp] theorem bindInput_input (c : Command) (s : State) : (s.bindInput c).input = Memory.ofBytes c.input := rfl
@[simp] theorem bindInput_staging (c : Command) (s : State) : (s.bindInput c).staging = s.staging := rfl
@[simp] theorem bindInput_port (c : Command) (s : State) : (s.bindInput c).port = s.port := rfl
@[simp] theorem bindInput_hostActions (c : Command) (s : State) : (s.bindInput c).hostActions = s.hostActions := rfl
@[simp] theorem bindInput_changed (c : Command) (s : State) : (s.bindInput c).changed = [] := rfl
@[simp] theorem bindInput_draws (c : Command) (s : State) : (s.bindInput c).draws = s.draws := rfl

/-! ### clearWork -/

@[simp] theorem clearWork_cfg (s : State) : (s.clearWork).cfg = s.cfg := rfl
@[simp] theorem clearWork_phase (s : State) : (s.clearWork).phase = s.phase := rfl
@[simp] theorem clearWork_cmd (s : State) : (s.clearWork).cmd = s.cmd := rfl
@[simp] theorem clearWork_n (s : State) : (s.clearWork).n = s.n := rfl
@[simp] theorem clearWork_i (s : State) : (s.clearWork).i = 0 := rfl
@[simp] theorem clearWork_k (s : State) : (s.clearWork).k = 0 := rfl
@[simp] theorem clearWork_t (s : State) : (s.clearWork).t = s.t := rfl
@[simp] theorem clearWork_l (s : State) : (s.clearWork).l = s.l := rfl
@[simp] theorem clearWork_acc (s : State) : (s.clearWork).acc = 0#12 := rfl
@[simp] theorem clearWork_nb (s : State) : (s.clearWork).nb = 0#4 := rfl
@[simp] theorem clearWork_status (s : State) : (s.clearWork).status = s.status := rfl
@[simp] theorem clearWork_outLen (s : State) : (s.clearWork).outLen = s.outLen := rfl
@[simp] theorem clearWork_out (s : State) : (s.clearWork).out = s.out := rfl
@[simp] theorem clearWork_input (s : State) : (s.clearWork).input = s.input := rfl
@[simp] theorem clearWork_staging (s : State) : (s.clearWork).staging = [] := rfl
@[simp] theorem clearWork_port (s : State) : (s.clearWork).port = s.port := rfl
@[simp] theorem clearWork_hostActions (s : State) : (s.clearWork).hostActions = s.hostActions := rfl
@[simp] theorem clearWork_changed (s : State) : (s.clearWork).changed = s.changed := rfl
@[simp] theorem clearWork_draws (s : State) : (s.clearWork).draws = s.draws := rfl

/-! ### present -/

@[simp] theorem present_cfg (c : Command) (s : State) : (s.present c).cfg = s.cfg := rfl
@[simp] theorem present_phase (c : Command) (s : State) : (s.present c).phase = s.phase := rfl
@[simp] theorem present_cmd (c : Command) (s : State) : (s.present c).cmd = s.cmd := rfl
@[simp] theorem present_n (c : Command) (s : State) : (s.present c).n = s.n := rfl
@[simp] theorem present_i (c : Command) (s : State) : (s.present c).i = s.i := rfl
@[simp] theorem present_k (c : Command) (s : State) : (s.present c).k = s.k := rfl
@[simp] theorem present_t (c : Command) (s : State) : (s.present c).t = s.t := rfl
@[simp] theorem present_l (c : Command) (s : State) : (s.present c).l = s.l := rfl
@[simp] theorem present_acc (c : Command) (s : State) : (s.present c).acc = s.acc := rfl
@[simp] theorem present_nb (c : Command) (s : State) : (s.present c).nb = s.nb := rfl
@[simp] theorem present_status (c : Command) (s : State) : (s.present c).status = s.status := rfl
@[simp] theorem present_outLen (c : Command) (s : State) : (s.present c).outLen = s.outLen := rfl
@[simp] theorem present_out (c : Command) (s : State) : (s.present c).out = s.out := rfl
@[simp] theorem present_input (c : Command) (s : State) : (s.present c).input = s.input := rfl
@[simp] theorem present_staging (c : Command) (s : State) : (s.present c).staging = s.staging := rfl
@[simp] theorem present_port (c : Command) (s : State) : (s.present c).port = some c := rfl
@[simp] theorem present_hostActions (c : Command) (s : State) : (s.present c).hostActions = s.hostActions := rfl
@[simp] theorem present_changed (c : Command) (s : State) : (s.present c).changed = s.changed := rfl
@[simp] theorem present_draws (c : Command) (s : State) : (s.present c).draws = s.draws := rfl

/-! ### resetBlock -/

@[simp] theorem resetBlock_cfg (s : State) : (s.resetBlock).cfg = s.cfg := rfl
@[simp] theorem resetBlock_phase (s : State) : (s.resetBlock).phase = State.reset.phase := rfl
@[simp] theorem resetBlock_cmd (s : State) : (s.resetBlock).cmd = State.reset.cmd := rfl
@[simp] theorem resetBlock_n (s : State) : (s.resetBlock).n = State.reset.n := rfl
@[simp] theorem resetBlock_i (s : State) : (s.resetBlock).i = State.reset.i := rfl
@[simp] theorem resetBlock_k (s : State) : (s.resetBlock).k = State.reset.k := rfl
@[simp] theorem resetBlock_t (s : State) : (s.resetBlock).t = State.reset.t := rfl
@[simp] theorem resetBlock_l (s : State) : (s.resetBlock).l = State.reset.l := rfl
@[simp] theorem resetBlock_acc (s : State) : (s.resetBlock).acc = State.reset.acc := rfl
@[simp] theorem resetBlock_nb (s : State) : (s.resetBlock).nb = State.reset.nb := rfl
@[simp] theorem resetBlock_status (s : State) : (s.resetBlock).status = State.reset.status := rfl
@[simp] theorem resetBlock_outLen (s : State) : (s.resetBlock).outLen = State.reset.outLen := rfl
@[simp] theorem resetBlock_out (s : State) : (s.resetBlock).out = State.reset.out := rfl
@[simp] theorem resetBlock_input (s : State) : (s.resetBlock).input = State.reset.input := rfl
@[simp] theorem resetBlock_staging (s : State) : (s.resetBlock).staging = State.reset.staging := rfl
@[simp] theorem resetBlock_port (s : State) : (s.resetBlock).port = s.port := rfl
@[simp] theorem resetBlock_hostActions (s : State) : (s.resetBlock).hostActions = s.hostActions := rfl
@[simp] theorem resetBlock_changed (s : State) : (s.resetBlock).changed = State.reset.changed := rfl
@[simp] theorem resetBlock_draws (s : State) : (s.resetBlock).draws = s.draws := rfl

/-! ### The completions and the host's reads -/

@[simp] theorem raiseInvalidEncoding_eq (s : State) :
    s.raiseInvalidEncoding = s.fail statusInvalidEncoding := rfl

@[simp] theorem raiseBadCommand_eq (s : State) : s.raiseBadCommand = s.fail statusBadCommand := rfl

@[simp] theorem completeOk_response (s : State) :
    s.completeOk.response = ⟨statusOk, s.k, s.staging.slice s.k⟩ := rfl

@[simp] theorem fail_response (code : StatusWord) (s : State) :
    (s.fail code).response = ⟨code, 0, []⟩ := rfl

/-- Disturbing IN changes nothing but the list of changed offsets. -/
theorem disturb_eq (offset : Nat) (s : State) :
    s.disturb offset = { s with changed := (s.disturb offset).changed } := by
  unfold disturb
  split <;> rfl

end Sys2Proof.Machine.State
end

