-- ==== Sys2Proof/Laws/Steps.lean ====
section
/-! SUPPORT. What the shared operations and the internal steps can do, said once: a read of IN, the frame of
an internal step, running to completion, and what the block finds at its port. -/

namespace Sys2Proof.Machine

/-! ### MemRead -/

/-- Everything a read of IN can do: the byte that stands there, with nothing changed, or at an offset the
host changed a free draw, with the draw counted (R41, R195). -/
theorem memRead_cases {a : Nat} {s s' : State} {b : Byte} (h : memRead a s = some (b, s')) :
    ∃ b₀, s.input.read a = some b₀ ∧
      ((a ∉ s.changed ∧ b = b₀ ∧ s' = s) ∨
        (a ∈ s.changed ∧ b = Config.freeByte s.draws ∧ s' = { s with draws := s.draws + 1 })) := by
  unfold memRead at h
  split at h
  · cases h
  · rename_i b₀ hb
    refine ⟨b₀, hb, ?_⟩
    split at h
    · rename_i hc
      cases h
      exact .inr ⟨by simpa using hc, rfl, rfl⟩
    · rename_i hc
      cases h
      exact .inl ⟨by simpa using hc, rfl, rfl⟩

/-- A read of IN changes nothing but the draw counter. -/
theorem memRead_frame {a : Nat} {s s' : State} {b : Byte} (h : memRead a s = some (b, s')) :
    s' = { s with draws := s'.draws } := by
  obtain ⟨_, _, ⟨_, _, rfl⟩ | ⟨_, _, rfl⟩⟩ := memRead_cases h <;> rfl

/-- With IN unchanged by the host, a read gives the byte that stands there. -/
theorem memRead_unchanged {a : Nat} {s : State} (h : s.changed = []) :
    memRead a s = (s.input.read a).map fun b => (b, s) := by
  unfold memRead
  cases s.input.read a <;> simp [h]

/-- A read answers where IN holds a byte. -/
theorem memRead_isSome {a : Nat} {s : State} : (memRead a s).isSome = (s.input.read a).isSome := by
  unfold memRead
  cases s.input.read a with
  | none => rfl
  | some b => dsimp only; split <;> rfl

/-! ### The frame of an internal step -/

/-- What no internal step writes: the configuration, CMD and N, IN, the port, the host's pending actions and
its changes. -/
structure SameCommand (s t : State) : Prop where
  cfg : t.cfg = s.cfg
  cmd : t.cmd = s.cmd
  n : t.n = s.n
  input : t.input = s.input
  port : t.port = s.port
  hostActions : t.hostActions = s.hostActions
  changed : t.changed = s.changed

theorem SameCommand.refl (s : State) : SameCommand s s := ⟨rfl, rfl, rfl, rfl, rfl, rfl, rfl⟩

theorem SameCommand.trans {s t u : State} (h : SameCommand s t) (g : SameCommand t u) :
    SameCommand s u :=
  ⟨g.cfg.trans h.cfg, g.cmd.trans h.cmd, g.n.trans h.n, g.input.trans h.input, g.port.trans h.port,
    g.hostActions.trans h.hostActions, g.changed.trans h.changed⟩

theorem memRead_same {a : Nat} {s s' : State} {b : Byte} (h : memRead a s = some (b, s')) :
    SameCommand s s' := by
  rw [memRead_frame h]
  exact ⟨rfl, rfl, rfl, rfl, rfl, rfl, rfl⟩

theorem encStart_same (s : State) : SameCommand s (encStart s) := ⟨rfl, rfl, rfl, rfl, rfl, rfl, rfl⟩

theorem encPutByte_same (b : Byte) (s : State) : SameCommand s (encPutByte b s) :=
  ⟨rfl, rfl, rfl, rfl, rfl, rfl, rfl⟩

theorem encEmit_same (s : State) : SameCommand s (encEmit s) := ⟨rfl, rfl, rfl, rfl, rfl, rfl, rfl⟩

theorem encPadOrDone_same (p : Bool) (s : State) : SameCommand s (encPadOrDone p s) := by
  unfold encPadOrDone
  split <;> exact ⟨rfl, rfl, rfl, rfl, rfl, rfl, rfl⟩

theorem encTail_same (p : Bool) (s : State) : SameCommand s (encTail p s) := by
  unfold encTail
  refine SameCommand.trans ?_ (encPadOrDone_same p _)
  split <;> exact ⟨rfl, rfl, rfl, rfl, rfl, rfl, rfl⟩

theorem encPad_same (p : Bool) (s : State) : SameCommand s (encPad p s) :=
  SameCommand.trans (t := s.emit padChar) ⟨rfl, rfl, rfl, rfl, rfl, rfl, rfl⟩ (encPadOrDone_same p _)

theorem decSetPayload_same (len : Nat) (s : State) : SameCommand s (decSetPayload len s) := by
  unfold decSetPayload
  split <;> exact ⟨rfl, rfl, rfl, rfl, rfl, rfl, rfl⟩

theorem decEndPadRun_same (s : State) : SameCommand s (decEndPadRun s) := by
  unfold decEndPadRun
  split
  · exact ⟨rfl, rfl, rfl, rfl, rfl, rfl, rfl⟩
  · exact decSetPayload_same _ s

theorem decStart_same (p : Bool) (s : State) : SameCommand s (decStart p s) := by
  unfold decStart
  split
  · dsimp only
    split <;> exact ⟨rfl, rfl, rfl, rfl, rfl, rfl, rfl⟩
  · exact ⟨rfl, rfl, rfl, rfl, rfl, rfl, rfl⟩

theorem decCountPad_same (c : Byte) (s : State) : SameCommand s (decCountPad c s) := by
  unfold decCountPad
  split
  · exact ⟨rfl, rfl, rfl, rfl, rfl, rfl, rfl⟩
  · exact decEndPadRun_same s

theorem decEmitByte_same (s : State) : SameCommand s (decEmitByte s) := by
  unfold decEmitByte
  split <;> exact ⟨rfl, rfl, rfl, rfl, rfl, rfl, rfl⟩

theorem decPutChar_same (c : Byte) (s : State) : SameCommand s (decPutChar c s) := by
  unfold decPutChar
  dsimp only
  split
  · exact ⟨rfl, rfl, rfl, rfl, rfl, rfl, rfl⟩
  · rename_i v _
    have h := decEmitByte_same
      { s with i := s.i + 1, acc := accPutDigit s.acc v, nb := s.nb + 5#4 }
    exact ⟨h.cfg, h.cmd, h.n, h.input, h.port, h.hostActions, h.changed⟩

theorem decFinal_same (s : State) : SameCommand s (decFinal s) := by
  unfold decFinal
  split <;> exact ⟨rfl, rfl, rfl, rfl, rfl, rfl, rfl⟩

/-- What an internal step leaves unchanged, in every phase and under both policies. -/
theorem microStep_same {p : Bool} {s t : State} (h : microStep p s = .next t) : SameCommand s t := by
  unfold microStep at h
  split at h
  · cases h; exact .refl s
  · unfold encLoad at h
    split at h
    · cases h
    · rename_i hr
      cases h; exact (memRead_same hr).trans (encPutByte_same _ _)
  · cases h; exact encEmit_same s
  · cases h; exact encTail_same p s
  · cases h; exact encPad_same p s
  · unfold decStruct at h
    split at h
    · split at h
      · split at h
        · cases h
        · rename_i hr
          cases h; exact (memRead_same hr).trans (decCountPad_same _ _)
      · cases h; exact decEndPadRun_same s
    · cases h; exact decSetPayload_same _ s
  · unfold decChar at h
    split at h
    · cases h
    · rename_i hr
      cases h; exact (memRead_same hr).trans (decPutChar_same _ _)
  · cases h; exact decFinal_same s

/-! ### Running to completion -/

/-- A run in IDLE is over. -/
@[simp] theorem runToIdle_idle {p : Bool} {f : Nat} {s : State} (h : s.phase = .idle) :
    runToIdle p f s = .next s := by
  cases f <;> simp [runToIdle, h]

/-- A run of a busy block makes one internal step and goes on. -/
theorem runToIdle_busy {p : Bool} {f : Nat} {s t : State} (hb : s.phase ≠ .idle)
    (h : microStep p s = .next t) : runToIdle p (f + 1) s = runToIdle p f t := by
  simp [runToIdle, hb, h]

/-- The induction of a run, packaged: what every internal step of a busy block keeps holds at its
completion, and the block is IDLE then. -/
theorem runToIdle_induct {p : Bool} {P : State → Prop}
    (hstep : ∀ s t, P s → s.phase ≠ .idle → microStep p s = .next t → P t) {f : Nat} {s t : State}
    (hs : P s) (h : runToIdle p f s = .next t) : P t ∧ t.phase = .idle := by
  induction f generalizing s with
  | zero =>
    unfold runToIdle at h
    split at h
    · rename_i hi; cases h; exact ⟨hs, hi⟩
    · cases h
  | succ f ih =>
    unfold runToIdle at h
    split at h
    · rename_i hi; cases h; exact ⟨hs, hi⟩
    · rename_i hb
      split at h
      · rename_i s' hm; exact ih (hstep s s' hs hb hm) h
      · cases h
      · cases h

/-- The progress of a run, packaged: where every internal step of a busy block answers and lowers a measure,
a run whose bound is at least the measure completes. -/
theorem runToIdle_completes {p : Bool} {P : State → Prop} (μ : State → Nat)
    (hstep : ∀ s, P s → s.phase ≠ .idle → ∃ t, microStep p s = .next t ∧ P t ∧ μ t < μ s)
    {f : Nat} {s : State} (hs : P s) (hf : μ s ≤ f) :
    ∃ t, runToIdle p f s = .next t ∧ P t ∧ t.phase = .idle := by
  induction f generalizing s with
  | zero =>
    by_cases hi : s.phase = .idle
    · exact ⟨s, runToIdle_idle hi, hs, hi⟩
    · obtain ⟨t, _, _, hlt⟩ := hstep s hs hi
      omega
  | succ f ih =>
    by_cases hi : s.phase = .idle
    · exact ⟨s, runToIdle_idle hi, hs, hi⟩
    · obtain ⟨t, hm, ht, hlt⟩ := hstep s hs hi
      rw [runToIdle_busy hi hm]
      exact ih ht (by omega)

/-- A whole run leaves unchanged what an internal step does. -/
theorem runToIdle_same {p : Bool} {f : Nat} {s t : State} (h : runToIdle p f s = .next t) :
    SameCommand s t :=
  (runToIdle_induct (P := SameCommand s) (fun _ _ hs _ hm => hs.trans (microStep_same hm))
    (.refl s) h).1

/-! ### The port -/

/-- Everything the block can find at its port. -/
theorem intake_cases (s : State) :
    (s.port = none ∧ intake s = .waiting) ∨
    (∃ c, s.port = some c ∧ intake s = .rejected (s.latch c).raiseBadCommand ∧
      ((∃ e, decodeWord c.cmd = .error e) ∨ s.cfg.accepts c.n = false)) ∨
    (∃ c i, s.port = some c ∧ decodeWord c.cmd = .ok i ∧ s.cfg.accepts c.n = true ∧
      intake s = .accepted i ((s.latch c).bindInput c)) := by
  unfold intake
  cases hp : s.port with
  | none => exact .inl ⟨rfl, rfl⟩
  | some c =>
    refine .inr ?_
    cases hd : decodeWord c.cmd with
    | error e => exact .inl ⟨c, rfl, by simp [hd], .inl ⟨e, hd⟩⟩
    | ok i =>
      cases ha : s.cfg.accepts c.n with
      | true => exact .inr ⟨c, i, rfl, hd, ha, by simp [hd, ha]⟩
      | false => exact .inl ⟨c, rfl, by simp [hd, ha], .inr ha⟩

end Sys2Proof.Machine
end

