-- ==== Sys2Proof/Laws/Accumulator.lean ====
section
/-! SUPPORT. The accumulator's fields as numbers (R104 to R106 of 41_encode.md, R139 to R141 of
42_decode.md): what is put in and taken out depends only on the NB significant low bits, "Bits of ACC above
NB-1 are stale and no later step reads them" (R104). And the two reading steps, where nothing was changed. -/

namespace Sys2Proof.Machine

/-- The significant bits after taking the high ones away are the low ones. -/
theorem accLeftover_mod (acc : Acc) {a nb : Nat} (h : a ≤ nb) :
    accLeftover acc nb % 2 ^ a = accLeftover acc a :=
  Nat.mod_mod_of_dvd _ (pow_dvd_pow 2 h)

theorem accLeftover_lt (acc : Acc) (nb : Nat) : accLeftover acc nb < 2 ^ nb :=
  Nat.mod_lt _ (by positivity)

/-- A shifted word with bits put into the cleared places is a sum. -/
theorem shiftLeft_or_toNat (acc : Acc) (s x : Nat) (hx : x < 2 ^ s) (hs : s ≤ 12) :
    (acc.toNat <<< s % 2 ^ 12 ||| x) = (acc.toNat * 2 ^ s + x) % 2 ^ 12 := by
  have hp : (2 : Nat) ^ 12 = 2 ^ s * 2 ^ (12 - s) := by rw [← pow_add]; congr 1; omega
  have h1 : acc.toNat <<< s % 2 ^ 12 = 2 ^ s * (acc.toNat % 2 ^ (12 - s)) := by
    rw [Nat.shiftLeft_eq, hp, mul_comm, Nat.mul_mod_mul_left]
  rw [h1, ← Nat.two_pow_add_eq_or_of_lt hx, hp, Nat.mod_mul, mul_comm acc.toNat,
    Nat.mul_add_mod, Nat.mod_eq_of_lt hx, Nat.mul_add_div (by positivity), Nat.div_eq_of_lt hx, add_zero]
  omega

/-- R104: with at most 4 bits kept, the NB + 8 significant bits are the kept ones followed by the byte. -/
theorem accPutByte_leftover (acc : Acc) (b : Byte) {nb : Nat} (h : nb ≤ 4) :
    accLeftover (accPutByte acc b) (nb + 8) = accLeftover acc nb * 2 ^ 8 + b.toNat := by
  have hb : b.toNat < 2 ^ 8 := b.isLt
  have e : (accPutByte acc b).toNat = (acc.toNat * 2 ^ 8 + b.toNat) % 2 ^ 12 := by
    rw [accPutByte, BitVec.toNat_or, BitVec.toNat_shiftLeft, BitVec.toNat_setWidth,
      Nat.mod_eq_of_lt (a := b.toNat) (by omega), shiftLeft_or_toNat acc 8 _ hb (by omega)]
  rw [accLeftover, accLeftover, e, Nat.mod_mod_of_dvd _ (pow_dvd_pow 2 (by omega : nb + 8 ≤ 12)),
    pow_add, mul_comm (2 ^ nb), Nat.mod_mul, mul_comm acc.toNat, Nat.mul_add_mod, Nat.mod_eq_of_lt hb,
    Nat.mul_add_div (by positivity), Nat.div_eq_of_lt hb, add_zero]
  ring

/-- R139: with at most 7 bits kept, the NB + 5 significant bits are the kept ones followed by the digit. -/
theorem accPutDigit_leftover (acc : Acc) (v : Digit) {nb : Nat} (h : nb ≤ 7) :
    accLeftover (accPutDigit acc v) (nb + 5) = accLeftover acc nb * 2 ^ 5 + v.toNat := by
  have hv : v.toNat < 2 ^ 5 := v.isLt
  have e : (accPutDigit acc v).toNat = (acc.toNat * 2 ^ 5 + v.toNat) % 2 ^ 12 := by
    rw [accPutDigit, BitVec.toNat_or, BitVec.toNat_shiftLeft, BitVec.toNat_setWidth,
      Nat.mod_eq_of_lt (a := v.toNat) (by omega), shiftLeft_or_toNat acc 5 _ hv (by omega)]
  rw [accLeftover, accLeftover, e, Nat.mod_mod_of_dvd _ (pow_dvd_pow 2 (by omega : nb + 5 ≤ 12)),
    pow_add, mul_comm (2 ^ nb), Nat.mod_mul, mul_comm acc.toNat, Nat.mul_add_mod, Nat.mod_eq_of_lt hv,
    Nat.mul_add_div (by positivity), Nat.div_eq_of_lt hv, add_zero]
  ring

/-- The top `w` of the significant bits, as a number. -/
theorem top_bits (x nb w : Nat) (h : w ≤ nb) :
    x / 2 ^ (nb - w) % 2 ^ w = x % 2 ^ nb / 2 ^ (nb - w) := by
  have hp : (2 : Nat) ^ nb = 2 ^ (nb - w) * 2 ^ w := by rw [← pow_add]; congr 1; omega
  rw [hp, Nat.mod_mul_right_div_self]

/-- R105: the digit taken is the top 5 of the significant bits. -/
theorem accTakeDigit_toNat (acc : Acc) {nb : Nat} (h : 5 ≤ nb) :
    (accTakeDigit acc nb).toNat = accLeftover acc nb / 2 ^ (nb - 5) := by
  rw [accTakeDigit, BitVec.toNat_setWidth, BitVec.toNat_ushiftRight, Nat.shiftRight_eq_div_pow,
    top_bits _ _ _ h, accLeftover]

/-- R140: the byte taken is the top 8 of the significant bits. -/
theorem accTakeByte_toNat (acc : Acc) {nb : Nat} (h : 8 ≤ nb) :
    (accTakeByte acc nb).toNat = accLeftover acc nb / 2 ^ (nb - 8) := by
  rw [accTakeByte, BitVec.toNat_setWidth, BitVec.toNat_ushiftRight, Nat.shiftRight_eq_div_pow,
    top_bits _ _ _ h, accLeftover]

/-- R106: the tail digit is the significant bits followed by 5 - NB zero bits. -/
theorem accTailDigit_toNat (acc : Acc) {nb : Nat} (h : nb ≤ 5) :
    (accTailDigit acc nb).toNat = accLeftover acc nb * 2 ^ (5 - nb) := by
  have hp : (2 : Nat) ^ 5 = 2 ^ (5 - nb) * 2 ^ nb := by rw [← pow_add]; congr 1; omega
  rw [accTailDigit, BitVec.toNat_setWidth, BitVec.toNat_shiftLeft,
    Nat.mod_mod_of_dvd _ (by norm_num : 2 ^ 5 ∣ 2 ^ 12), Nat.shiftLeft_eq, hp, mul_comm acc.toNat,
    Nat.mul_mod_mul_left, accLeftover, mul_comm]

/-! ### The 4-bit counters do not wrap in their ranges (R26, R27) -/

/-- R104: on entry NB is at most 4, so NB + 8 fits. -/
theorem counter_add8 {c : Counter} (h : c.toNat ≤ 4) : (c + 8#4).toNat = c.toNat + 8 := by bv_omega

/-- R139: on entry NB is at most 7, so NB + 5 fits. -/
theorem counter_add5 {c : Counter} (h : c.toNat ≤ 7) : (c + 5#4).toNat = c.toNat + 5 := by bv_omega

/-- R105. -/
theorem counter_sub5 {c : Counter} (h : 5 ≤ c.toNat) : (c - 5#4).toNat = c.toNat - 5 := by bv_omega

/-- R140. -/
theorem counter_sub8 {c : Counter} (h : 8 ≤ c.toNat) : (c - 8#4).toNat = c.toNat - 8 := by bv_omega

/-- R132: T counts up to 8 from below it. -/
theorem counter_add1 {c : Counter} (h : c.toNat < 8) : (c + 1#4).toNat = c.toNat + 1 := by bv_omega

/-! ### The reading steps, where the host has changed nothing -/

theorem encLoad_next {s : State} {b : Byte} (hc : s.changed = []) (hb : s.input.read s.i = some b) :
    encLoad s = .next (encPutByte b s) := by
  simp [encLoad, memRead_unchanged hc, hb]

theorem decChar_next {s : State} {c : Byte} (hc : s.changed = []) (hb : s.input.read s.i = some c) :
    decChar s = .next (decPutChar c s) := by
  simp [decChar, memRead_unchanged hc, hb]

theorem decStruct_next {s : State} {c : Byte} (hc : s.changed = []) (ht : s.t.toNat < 8 ∧ s.t.toNat < s.n)
    (hb : s.input.read (s.n - 1 - s.t.toNat) = some c) :
    decStruct true s = .next (decCountPad c s) := by
  simp [decStruct, ht, memRead_unchanged hc, hb]

end Sys2Proof.Machine
end

