-- ==== Sys2Proof/Laws/Memory.lean ====
section
/-! SUPPORT. The laws of the byte spaces: what a read gives after a write, that every operation keeps the
canonical form, and what a space of consecutive bytes is (R41 to R43 of 20_memory.md). -/

namespace Sys2Proof.Machine.Memory

@[simp] theorem read_nil (a : Nat) : Memory.read [] a = none := rfl

/-! ### Read after write -/

theorem read_write_same (m : Memory) (a : Nat) (v : Byte) : (m.write a v).read a = some v := by
  induction m with
  | nil => simp [Memory.write, Memory.read]
  | cons c rest ih =>
    obtain ⟨x, b⟩ := c
    simp only [Memory.write]
    split
    · simp [Memory.read]
    · split
      · simp [Memory.read]
      · rename_i h1 h2
        simp [Memory.read, Ne.symm h2, ih]

theorem read_write_other (m : Memory) (a a' : Nat) (v : Byte) (h : a' ≠ a) :
    (m.write a v).read a' = m.read a' := by
  induction m with
  | nil => simp [Memory.write, Memory.read, Ne.symm h]
  | cons c rest ih =>
    obtain ⟨x, b⟩ := c
    simp only [Memory.write]
    split
    · simp [Memory.read, Ne.symm h]
    · split
      · rename_i h1 h2
        simp [Memory.read, ← h2, Ne.symm h]
      · simp [Memory.read, ih]

/-! ### The canonical form -/

/-- An offset a write lists was listed before, or is the one written. -/
theorem mem_write {m : Memory} {a : Nat} {v : Byte} {c : Host.Cell} (h : c ∈ m.write a v) :
    c = (a, v) ∨ c ∈ m := by
  induction m with
  | nil => simpa [Memory.write] using h
  | cons d rest ih =>
    obtain ⟨x, b⟩ := d
    simp only [Memory.write] at h
    split at h
    · simpa using h
    · split at h
      · rcases List.mem_cons.1 h with h | h
        · exact .inl h
        · exact .inr (List.mem_cons_of_mem _ h)
      · rcases List.mem_cons.1 h with h | h
        · exact .inr (h ▸ List.mem_cons_self)
        · exact (ih h).imp_right (List.mem_cons_of_mem _)

/-- A write keeps the canonical form. -/
theorem write_wf {m : Memory} (a : Nat) (v : Byte) (h : m.wf) : (m.write a v).wf := by
  induction m with
  | nil => simp [Memory.write, Memory.wf]
  | cons c rest ih =>
    obtain ⟨x, b⟩ := c
    obtain ⟨hx, hr⟩ := List.pairwise_cons.1 h
    simp only [Memory.write]
    split
    · rename_i hlt
      refine List.pairwise_cons.2 ⟨fun d hd => ?_, h⟩
      rcases List.mem_cons.1 hd with rfl | hd
      · exact hlt
      · exact lt_trans hlt (hx d hd)
    · split
      · rename_i h1 h2
        subst h2
        exact List.pairwise_cons.2 ⟨hx, hr⟩
      · rename_i h1 h2
        refine List.pairwise_cons.2 ⟨fun d hd => ?_, ih hr⟩
        rcases mem_write hd with rfl | hd
        · exact lt_of_le_of_ne (not_lt.1 h1) (Ne.symm h2)
        · exact hx d hd

/-- A space whose offsets are 0..k-1 is in canonical form. -/
theorem wf_of_offsets {m : Memory} {k : Nat} (h : m.map Prod.fst = List.range k) : m.wf := by
  have hp : (m.map Prod.fst).Pairwise (· < ·) := h ▸ List.pairwise_lt_range
  exact List.pairwise_map.1 hp

/-! ### A byte sequence as a space -/

@[simp] theorem ofBytesFrom_length (a : Nat) (bs : List Byte) :
    (Memory.ofBytesFrom a bs).length = bs.length := by
  induction bs generalizing a with
  | nil => rfl
  | cons b rest ih => simp [Memory.ofBytesFrom, ih]

theorem ofBytesFrom_offsets (a : Nat) (bs : List Byte) :
    (Memory.ofBytesFrom a bs).map Prod.fst = List.range' a bs.length := by
  induction bs generalizing a with
  | nil => rfl
  | cons b rest ih => simp [Memory.ofBytesFrom, List.range'_succ, ih]

/-- The offsets of a byte sequence's space are 0..n-1. -/
theorem ofBytes_offsets (bs : List Byte) :
    (Memory.ofBytes bs).map Prod.fst = List.range bs.length := by
  rw [Memory.ofBytes, ofBytesFrom_offsets, List.range_eq_range']

theorem ofBytes_wf (bs : List Byte) : (Memory.ofBytes bs).wf := wf_of_offsets (ofBytes_offsets bs)

theorem read_ofBytesFrom (a j : Nat) (bs : List Byte) :
    (Memory.ofBytesFrom a bs).read (a + j) = bs[j]? := by
  induction bs generalizing a j with
  | nil => simp [Memory.ofBytesFrom]
  | cons b rest ih =>
    cases j with
    | zero => simp [Memory.ofBytesFrom, Memory.read]
    | succ j =>
      have h : a + (j + 1) = (a + 1) + j := by omega
      simp only [Memory.ofBytesFrom, Memory.read]
      rw [if_neg (by omega), h, ih]
      simp

/-- Reading a byte sequence's space gives the sequence's element, or none beyond its end (R41). -/
@[simp] theorem read_ofBytes (bs : List Byte) (j : Nat) : (Memory.ofBytes bs).read j = bs[j]? := by
  simpa [Memory.ofBytes] using read_ofBytesFrom 0 j bs

/-! ### A space of consecutive bytes -/

/-- A write above every listed offset goes to the end. -/
theorem write_append {m : Memory} {a : Nat} (v : Byte) (h : ∀ c ∈ m, c.1 < a) :
    m.write a v = m ++ [(a, v)] := by
  induction m with
  | nil => rfl
  | cons c rest ih =>
    obtain ⟨x, b⟩ := c
    have hx : x < a := h (x, b) List.mem_cons_self
    simp only [Memory.write, List.cons_append]
    rw [if_neg (by omega), if_neg (by omega), ih fun d hd => h d (List.mem_cons_of_mem _ hd)]

/-- Emitting at offset k of a space with offsets 0..k-1 (R42). -/
theorem write_at_count {m : Memory} {k : Nat} (v : Byte) (h : m.map Prod.fst = List.range k) :
    m.write k v = m ++ [(k, v)] := by
  refine write_append v fun c hc => ?_
  have : c.1 ∈ m.map Prod.fst := List.mem_map_of_mem hc
  rw [h] at this
  exact List.mem_range.1 this

/-- The offsets after emitting at offset k are 0..k. -/
theorem offsets_write {m : Memory} {k : Nat} (v : Byte) (h : m.map Prod.fst = List.range k) :
    (m.write k v).map Prod.fst = List.range (k + 1) := by
  rw [write_at_count v h, List.map_append, h, List.range_succ]
  rfl

/-- The slice after emitting at offset k is the old one with the byte at its end. -/
theorem slice_write (m : Memory) (k : Nat) (v : Byte) :
    (m.write k v).slice (k + 1) = m.slice k ++ [v] := by
  have h : (List.range k).filterMap (m.write k v).read = (List.range k).filterMap m.read := by
    refine List.filterMap_congr fun a ha => ?_
    exact read_write_other m k a v (by have := List.mem_range.1 ha; omega)
  simp [Memory.slice, List.range_succ, List.filterMap_append, h, read_write_same]

@[simp] theorem slice_zero (m : Memory) : m.slice 0 = [] := rfl

/-- A space with offsets 0..k-1 has k bytes in its slice. -/
theorem slice_length {m : Memory} {k : Nat} (h : m.map Prod.fst = List.range k) :
    (m.slice k).length = k := by
  induction k generalizing m with
  | zero => rfl
  | succ k ih =>
    obtain ⟨m', c, rfl⟩ : ∃ m' c, m = m' ++ [c] := by
      refine ⟨m.dropLast, m.getLast (by rintro rfl; simp at h), (List.dropLast_append_getLast _).symm⟩
    rw [List.map_append, List.range_succ] at h
    obtain ⟨h1, h2⟩ := List.append_inj' h rfl
    obtain ⟨x, v⟩ := c
    obtain rfl : x = k := by simpa using h2
    rw [← write_at_count v h1, slice_write, List.length_append, ih h1]
    rfl

end Sys2Proof.Machine.Memory

namespace Sys2Proof.Machine

theorem reset_input_wf : State.reset.input.wf := List.Pairwise.nil

theorem reset_staging_wf : State.reset.staging.wf := List.Pairwise.nil

end Sys2Proof.Machine
end

