-- ==== Sys2Proof/Laws/PerInstr.lean ====
section
/-! SUPPORT. What holds of every command as syntax, one lemma per constructor. -/

namespace Sys2Proof.Laws.EncodedWord

/-- The word of a command is well formed (R61): OP is 0 or 1 and RSV is 0; and P stands in bit 2 (R62). -/
def Statement (i : Instr) : Prop :=
  wordWf (encodeWord i) = true ∧
    policyField (encodeWord i) = (match i with | .enc p => p | .dec p => p)

theorem enc (p : Bool) : Statement (.enc p) := by cases p <;> exact ⟨by decide, by decide⟩

theorem dec (p : Bool) : Statement (.dec p) := by cases p <;> exact ⟨by decide, by decide⟩

end Sys2Proof.Laws.EncodedWord
end

