-- ==== Sys2Proof/Machine/Program.lean ====
section
/-! DEFINITION. Running a program: "a sequence of such lines, issued in order, each after the previous
one completes" (R67 of 30_encoding.md). R67 does not say which state a program starts from; what is done on a
start that is not IDLE with a free port is the model's choice (DESIGN CHOICE, log 22). -/

namespace Sys2Proof.Machine

/-- Issue one command once nothing is running and the port is free: the running command, if any, completes,
then the held one, if any (R194: it is never dropped), then `c` is presented and runs. Pending host actions
are not performed and stay pending (DESIGN CHOICE, log 22). From an IDLE state with a free port the first two
steps wait (R185), and this is the step on the presented command. -/
def issue (c : Command) (s : State) : Host.Outcome State Fault Refusal :=
  match commandStep s with
  | .fault r => .fault r
  | .refused r => .refused r
  | .next s1 =>
    match commandStep s1 with
    | .fault r => .fault r
    | .refused r => .refused r
    | .next s2 => commandStep (s2.present c)

/-- Issue each command after the previous one has completed. The start may be any state (DESIGN CHOICE,
log 22). -/
def runProgram (cs : List Command) (s : State) : Host.Outcome State Fault Refusal :=
  match cs with
  | [] => .next s
  | c :: rest =>
    match issue c s with
    | .next s' => runProgram rest s'
    | .fault r => .fault r
    | .refused r => .refused r

end Sys2Proof.Machine
end

