-- ==== Sys2Proof/Laws/Program.lean ====
section
/-! SUPPORT. Issuing a command from a state that is ready for it. -/

namespace Sys2Proof.Machine

/-- An IDLE block with a free port waits (R185). -/
theorem commandStep_waits {s : State} (hi : s.phase = .idle) (hp : s.port = none) :
    commandStep s = .next s := by
  simp [commandStep, intake, hi, hp]

/-- From an IDLE block with a free port, issuing a command is the command-level step on it, presented. -/
theorem issue_ready {c : Command} {s : State} (hi : s.phase = .idle) (hp : s.port = none) :
    issue c s = commandStep (s.present c) := by
  simp [issue, commandStep_waits hi hp]

/-- With no host action pending, that is the machine's step (R67). -/
theorem issue_eq_step {c : Command} {s : State} (hi : s.phase = .idle) (hp : s.port = none)
    (hh : s.hostActions = []) : issue c s = step (s.present c) := by
  rw [issue_ready hi hp, step, nextStep, State.present_hostActions, hh]

end Sys2Proof.Machine
end

