-- ==== Sys2Proof/Tests/Slice0.lean ====
section
/-! SUPPORT. The model's own tests, each against a vector or a table of spec/ (95_test_vectors.md unless
another file is named), and for each statement with hypotheses a state and operands that meet them. -/

open Sys2Proof Sys2Proof.Machine Sys2Proof.Spec

namespace Sys2Proof.Tests

/-! ### Helpers -/

/-- The outcome is a next state of which `f` holds. -/
def nextSat (o : Host.Outcome State Fault Refusal) (f : State → Bool) : Bool :=
  match o with
  | .next t => f t
  | .fault _ => false
  | .refused _ => false

theorem next_of_nextSat {o : Host.Outcome State Fault Refusal} {f : State → Bool}
    (h : nextSat o f = true) : ∃ t, o = .next t ∧ f t = true := by
  cases o with
  | next t => exact ⟨t, rfl, h⟩
  | fault r => cases h
  | refused r => cases h

/-- The outcome is an IDLE state with this response. -/
def answers (o : Host.Outcome State Fault Refusal) (st : StatusWord) (bs : List Byte) : Bool :=
  nextSat o fun t => t.phase = .idle ∧ t.response = ⟨st, bs.length, bs⟩

/-- Right after reset, with a command presented. -/
def given (w : Byte) (bs : List Byte) : State := State.reset.present ⟨w, bs⟩

/-- The same with N_MAX = 4 (section 2.4). -/
def given4 (w : Byte) (bs : List Byte) : State := { given w bs with cfg := ⟨some 4⟩ }

/-- An accepted command's state: N and IN. -/
def bound (bs : List Byte) : State :=
  { State.reset with n := bs.length, input := Memory.ofBytes bs }

/-- The state that the start of a command leaves. -/
def started (w : Byte) (bs : List Byte) (i : Instr) : State :=
  startCommand i ((State.reset.latch ⟨w, bs⟩).bindInput ⟨w, bs⟩)

/-! ### Well-formedness: an ill-formed term for each check (R61, R65) -/

theorem test_wf_refuses_reserved_op : wordWf 0x02#8 = false ∧ wordWf 0x07#8 = false := by decide
theorem test_wf_refuses_reserved_bits : wordWf 0x08#8 = false ∧ wordWf 0x84#8 = false := by decide
theorem test_wf_refuses_long_input : commandWf ⟨some 4⟩ 0x00#8 5 = false := by decide
theorem test_wf_accepts : commandWf ⟨some 4⟩ 0x05#8 4 = true ∧ Instr.wf (.dec true) = true := by decide

/-! ### Decoding: words written out bit by bit from R63 of 30_encoding.md -/

theorem test_decode_enc : decode [0b00000000#8, 0x66#8] = .ok (.enc false, [0x66#8]) := by decide
theorem test_decode_enc_p : decode [0b00000100#8] = .ok (.enc true, []) := by decide
theorem test_decode_dec : decode [0b00000001#8] = .ok (.dec false, []) := by decide
theorem test_decode_dec_p : decode [0b00000101#8] = .ok (.dec true, []) := by decide
theorem test_decode_reserved :
    decode [0b00000110#8] = .error .reservedOp ∧ decode [0b00001000#8] = .error .reservedBits ∧
      decode [] = .error .noWord := by decide

/-! ### Lookups (section 2.1) -/

theorem test_alpha : alpha 0#5 = 0x41#8 ∧ alpha 25#5 = 0x5A#8 ∧ alpha 26#5 = 0x32#8 ∧ alpha 31#5 = 0x37#8 := by
  decide
theorem test_rev : rev 0x5A#8 = some 25#5 ∧ rev 0x32#8 = some 26#5 ∧ rev 0x31#8 = none ∧ rev 0x5B#8 = none ∧
    rev 0x40#8 = none := by decide

/-! ### The two commands (section 1.2 and sections 2.2, 2.3) -/

/-- `ENC.P "foobar"` gives "MZXW6YTBOI======". -/
theorem test_enc_p_foobar :
    answers (step (given 0x04 [0x66, 0x6F, 0x6F, 0x62, 0x61, 0x72])) 1#2
      [0x4D, 0x5A, 0x58, 0x57, 0x36, 0x59, 0x54, 0x42, 0x4F, 0x49, 0x3D, 0x3D, 0x3D, 0x3D, 0x3D, 0x3D] = true := by
  decide
/-- `ENC x"FF FF FF FF"` gives "777777Y". -/
theorem test_enc_zero_fill :
    answers (step (given 0x00 [0xFF, 0xFF, 0xFF, 0xFF])) 1#2 [0x37, 0x37, 0x37, 0x37, 0x37, 0x37, 0x59] = true := by
  decide
/-- `DEC.P "MZXW6==="` gives "foo". -/
theorem test_dec_p_foo :
    answers (step (given 0x05 [0x4D, 0x5A, 0x58, 0x57, 0x36, 0x3D, 0x3D, 0x3D])) 1#2 [0x66, 0x6F, 0x6F] = true := by
  decide
/-- `DEC "75"` fails with cause TAIL_BITS; the byte it had staged is not exposed (Program B). -/
theorem test_dec_tail_bits : answers (step (given 0x01 [0x37, 0x35])) 2#2 [] = true := by decide

/-! ### Refusals (section 2.4) and the order of checks (section 2.5) -/

theorem test_reserved_word : answers (step (given 0x06 [0x4D, 0x59])) 3#2 [] = true := by decide
theorem test_n_max :
    answers (step (given4 0x00 [0xDE, 0xAD, 0xBE, 0xEF])) 1#2 [0x33, 0x32, 0x57, 0x33, 0x35, 0x33, 0x59] = true ∧
      answers (step (given4 0x00 [0, 0, 0, 0, 0])) 3#2 [] = true := by decide

/-! ### Internal steps (the traces of sections 2.2 and 2.3) -/

/-- `ENC.P "f"`: after acceptance, E_LOAD and E_EMIT, ACC = 0x066, NB = 3, K = 1. -/
theorem test_enc_trace :
    nextSat (blockSteps 3 (given 0x04 [0x66]))
      (fun t => t.phase = .eTail ∧ t.acc = 0x066#12 ∧ t.nb = 3#4 ∧ t.k = 1 ∧ t.staging = [(0, 0x4D#8)]) = true := by
  decide
/-- `DEC "MZXQ"`: after acceptance, D_STRUCT and four characters, ACC = 0x6F0, NB = 4. -/
theorem test_dec_trace :
    nextSat (blockSteps 6 (given 0x01 [0x4D, 0x5A, 0x58, 0x51]))
      (fun t => t.phase = .dFinal ∧ t.acc = 0x6F0#12 ∧ t.nb = 4#4 ∧ t.k = 2) = true := by decide

/-! ### Programs and their syntax (section 3.4) -/

/-- Program D: ENC "fo"; DEC.P "MZXQ"; DEC "MZXQ". -/
theorem test_program_d :
    answers (runProgram [⟨0x00, [0x66, 0x6F]⟩, ⟨0x05, [0x4D, 0x5A, 0x58, 0x51]⟩] State.reset) 2#2 [] = true ∧
      answers (runProgram [⟨0x05, [0x4D, 0x5A, 0x58, 0x51]⟩, ⟨0x01, [0x4D, 0x5A, 0x58, 0x51]⟩] State.reset) 1#2
        [0x66, 0x6F] = true := by decide
/-- A program started with ENC "f" held at the port does not drop it (R194, log 22): the program's own line is
refused (R172), and K = 2 is what the held command left. -/
theorem test_program_keeps_held_command :
    nextSat (runProgram [⟨0x00, [0, 0, 0, 0, 0]⟩] (given4 0x00 [0x66]))
      (fun t => t.status = 3#2 ∧ t.k = 2 ∧ t.n = 5) = true := by decide
theorem test_parse_hex_line :
    parseLine "ENC x\"66 6F\"   ; 00 | 66 6F".toList = .ok (some ⟨0x00#8, [0x66#8, 0x6F#8]⟩) := by decide
/-- The spacing of a hex list, the model's choice (log 21). -/
theorem test_hex_list_spacing :
    hexBytes "666F\"".toList = some ([0x66#8, 0x6F#8], []) ∧
    hexBytes " 66  6F \"".toList = some ([0x66#8, 0x6F#8], []) ∧ hexBytes "6 6\"".toList = none := by decide
theorem test_parse_reserved_line :
    parseLine "CMD 0x06 \"MY\"".toList = .ok (some ⟨0x06#8, [0x4D#8, 0x59#8]⟩) := by decide
theorem test_parse_program :
    parseProgram ["; empty".toList, "DEC \"MY\"".toList] = .ok [⟨0x01#8, [0x4D#8, 0x59#8]⟩] := by decide

/-! ### The host between internal steps (R191, R194, R195 of 70_reset_and_hazards.md) -/

/-- A second command is held at the port while the first runs, then runs (R194). -/
theorem test_held_command :
    nextSat (blockSteps 1 (given 0x00 [0x66])) (fun t =>
      nextSat (step { t with hostActions := [.present ⟨0x01, [0x4D, 0x59]⟩] }) fun u =>
        nextSat (step u) fun v => answers (step v) 1#2 [0x66]) = true := by decide
/-- Reset in E_EMIT gives the reset response (R191). -/
theorem test_reset_while_busy :
    nextSat (step { started 0x00 [0x66] (.enc false) with hostActions := [.reset], status := 1#2, outLen := 1, out := [0x41] })
      (fun t => t.phase = .idle ∧ t.response = ⟨0#2, 0, []⟩) = true := by decide
/-- A host write while a command runs leaves the bytes of the held command (log 23, the model's choice). -/
theorem test_disturb_leaves_held_command :
    nextSat (blockSteps 1 (given 0x00 [0x66])) (fun t =>
      (({ t with port := some ⟨0x01, [0x4D]⟩ }).disturb 0).port = some ⟨0x01, [0x4D]⟩) = true := by decide

/-- A disturbed byte is drawn: one draw is counted, and ENCODE still completes OK (R195). -/
theorem test_disturbed_read :
    nextSat (step { started 0x00 [0x66] (.enc false) with changed := [0] })
      (fun t => t.status = 1#2 ∧ t.outLen = 2 ∧ t.draws = 1) = true := by decide

end Sys2Proof.Tests

/-! ### Witnesses: the hypotheses of each statement are met -/

namespace Sys2Proof.Witnesses

open Sys2Proof.Tests

theorem presented (w : Byte) (bs : List Byte) : Presented (given w bs) ⟨w, bs⟩ := ⟨rfl, rfl, rfl⟩

theorem holds (bs : List Byte) : Holds (bound bs) bs := ⟨rfl, rfl, rfl⟩

/-- A busy ENCODE state is sound. -/
theorem started_enc_inv : (started 0x04 [0x66] (.enc true)).Inv :=
  ⟨by decide, by decide, by decide, by decide, by decide, by decide⟩

/-- A busy DECODE state is sound. -/
theorem started_dec_inv : (started 0x01 [0x4D, 0x59] (.dec false)).Inv :=
  ⟨by decide, by decide, by decide, by decide, by decide, by decide⟩

theorem witness_ResetAbandonsRunningCommand :
    ∃ (s : State) (rest : List HostAction), s.phase ≠ .idle ∧ s.hostActions = .reset :: rest ∧ rest = [] ∧ s.port = none :=
  ⟨{ started 0x04 [0x66] (.enc true) with hostActions := [.reset] }, [], by decide, rfl, rfl, rfl⟩

theorem witness_ResetAbandonsRunningCommand_idle :
    ∃ (s : State) (rest : List HostAction), s.phase = .idle ∧ s.hostActions = .reset :: rest ∧ s.response ≠ ⟨0#2, 0, []⟩ :=
  ⟨{ State.reset with hostActions := [.reset], status := 1#2, outLen := 1, out := [0x66] }, [], rfl, rfl, by decide⟩

theorem witness_StepKeepsSoundness : ∃ s t : State, s.Inv ∧ step s = .next t :=
  have ⟨t, ht, _⟩ := next_of_nextSat (f := fun _ => true)
    (show nextSat (step (started 0x04 [0x66] (.enc true))) _ = true by decide)
  ⟨_, t, started_enc_inv, ht⟩

theorem witness_SoundStateStepAnswersNext : ∃ s : State, s.Inv ∧ s.phase = .dStruct :=
  ⟨_, started_dec_inv, by decide⟩

theorem witness_OutputCountIsBounded :
    ∃ (s t : State) (c : Command) (i : Instr) (k : Nat), Presented s c ∧ decodeWord c.cmd = .ok i ∧
      s.cfg.accepts c.n = true ∧ blockSteps (k + 1) s = .next t ∧ t.k = 8 :=
  have ⟨t, ht, hk⟩ := next_of_nextSat (f := fun t => t.k = 8)
    (show nextSat (blockSteps (11 + 1) (given 0x04 [0x66])) _ = true by decide)
  ⟨_, t, _, .enc true, 11, presented 0x04 [0x66], by decide, by decide, ht, of_decide_eq_true hk⟩

theorem witness_OutputCountIsBounded_decode :
    ∃ (s t : State) (c : Command) (i : Instr) (k : Nat), Presented s c ∧ decodeWord c.cmd = .ok i ∧
      s.cfg.accepts c.n = true ∧ blockSteps (k + 1) s = .next t ∧ t.k = 1 :=
  have ⟨t, ht, hk⟩ := next_of_nextSat (f := fun t => t.k = 1)
    (show nextSat (blockSteps (4 + 1) (given 0x01 [0x4D, 0x59])) _ = true by decide)
  ⟨_, t, _, .dec false, 4, presented 0x01 [0x4D, 0x59], by decide, by decide, ht, of_decide_eq_true hk⟩

theorem witness_DecodeOfEncodeIsTheCommand : (Instr.enc true).wf = true ∧ (Instr.dec false).wf = true := ⟨rfl, rfl⟩

theorem witness_StepRunsTheCommandAtThePort :
    Presented (given4 0x05 [0, 0, 0, 0]) ⟨0x05, [0, 0, 0, 0]⟩ ∧ decodeWord 0x05#8 = .ok (.dec true) ∧
      ∀ m, (given4 0x05 [0, 0, 0, 0]).cfg.nMax = some m → Command.n ⟨0x05, [0, 0, 0, 0]⟩ ≤ m :=
  ⟨⟨rfl, rfl, rfl⟩, by decide, fun m h => by cases h; decide⟩

theorem witness_StepRunsThePlacedWord : decodeTableWord 8 0x05 = some (.dec true) := by decide

theorem witness_BadCommandIsRefusedUntouched_op :
    Presented (given 0x02 [0x66]) ⟨0x02, [0x66]⟩ ∧ opField 0x02#8 = 2#2 ∧
      Presented (given 0x07 []) ⟨0x07, []⟩ ∧ opField 0x07#8 = 3#2 :=
  ⟨presented _ _, by decide, presented _ _, by decide⟩

theorem witness_BadCommandIsRefusedUntouched_rsv :
    Presented (given 0x08 [0x66]) ⟨0x08, [0x66]⟩ ∧ rsvField 0x08#8 ≠ 0#5 := ⟨presented _ _, by decide⟩

theorem witness_BadCommandIsRefusedUntouched_length :
    Presented (given4 0x00 [0, 0, 0, 0, 0]) ⟨0x00, [0, 0, 0, 0, 0]⟩ ∧
      ∃ m, (given4 0x00 [0, 0, 0, 0, 0]).cfg.nMax = some m ∧ m < Command.n ⟨0x00, [0, 0, 0, 0, 0]⟩ :=
  ⟨⟨rfl, rfl, rfl⟩, 4, rfl, by decide⟩

theorem witness_IdleBlockWaits :
    State.reset.phase = .idle ∧ State.reset.hostActions = [] ∧ State.reset.port = none := ⟨rfl, rfl, rfl⟩

theorem witness_EveryCommandEndsInOneOutcome :
    Presented (given 0x05 [0x3D]) ⟨0x05, [0x3D]⟩ ∧ Presented (given 0xFF []) ⟨0xFF, []⟩ :=
  ⟨presented _ _, presented _ _⟩

theorem witness_InvalidEncodingMeansDecode :
    ∃ (s t : State) (c : Command), Presented s c ∧ step s = .next t ∧ t.status = 2#2 :=
  have ⟨t, ht, hs⟩ := next_of_nextSat (f := fun t => t.status = 2#2)
    (show nextSat (step (given 0x01 [0x4D])) _ = true by decide)
  ⟨_, t, _, presented 0x01 [0x4D], ht, of_decide_eq_true hs⟩

theorem witness_ResponseDependsOnTheCommandOnly :
    ∃ (s s' : State) (c : Command), Presented s c ∧ Presented s' c ∧ s.cfg.nMax = s'.cfg.nMax ∧ s ≠ s' :=
  ⟨given 0x00 [0x66], { given 0x00 [0x66] with acc := 0xFFF#12, nb := 7#4, status := 2#2 }, ⟨0x00, [0x66]⟩,
    presented _ _, ⟨rfl, rfl, rfl⟩, rfl, by decide⟩

theorem witness_FailureExposesNoOutput :
    ∃ (s t : State) (c : Command), Presented s c ∧ step s = .next t ∧ t.status ≠ 1#2 :=
  have ⟨t, ht, hs⟩ := next_of_nextSat (f := fun t => t.status ≠ 1#2)
    (show nextSat (step (given 0x01 [0x4D, 0x5A])) _ = true by decide)
  ⟨_, t, _, presented 0x01 [0x4D, 0x5A], ht, of_decide_eq_true hs⟩

theorem witness_CommandStepIsItsInternalSteps : Presented (given 0x05 [0x4D]) ⟨0x05, [0x4D]⟩ := presented _ _

theorem witness_ResponseChangesOnlyAtCompletion :
    ∃ s t : State, step s = .next t ∧ t.phase ≠ .idle :=
  have ⟨t, ht, hs⟩ := next_of_nextSat (f := fun t => t.phase ≠ .idle)
    (show nextSat (step { given 0x00 [0x66] with hostActions := [.pulse] }) _ = true by decide)
  ⟨_, t, ht, of_decide_eq_true hs⟩

/-- For the statements about an internal step of a busy block: `BusyBlockHoldsThePort`,
`BlockNeverWritesInput`, and E_LOAD of `InputOffsetGoesUpByOne`. -/
theorem witness_busy_internal_step :
    ∃ s t : State, s.phase ≠ .idle ∧ blockStep s = .next t ∧ s.port ≠ none ∧ t.i = s.i + 1 :=
  have ⟨t, ht, hs⟩ := next_of_nextSat (f := fun t => t.i = 1)
    (show nextSat (blockStep { started 0x00 [0x66] (.enc false) with port := some ⟨0x01, []⟩ }) _ = true by decide)
  ⟨_, t, by decide, ht, by decide, of_decide_eq_true hs⟩

theorem witness_InputOffsetGoesUpByOne_dChar :
    ∃ s t : State, blockStep s = .next t ∧ s.phase = .dChar :=
  have ⟨t, ht, _⟩ := next_of_nextSat (f := fun _ => true)
    (show nextSat (blockStep { started 0x01 [0x4D, 0x59] (.dec false) with phase := .dChar, l := 2 }) _ = true by decide)
  ⟨_, t, ht, rfl⟩

theorem witness_InputOffsetGoesUpByOne_other :
    ∃ s t : State, blockStep s = .next t ∧ s.phase ≠ .idle ∧ s.phase ≠ .eLoad ∧ s.phase ≠ .dChar :=
  have ⟨t, ht, _⟩ := next_of_nextSat (f := fun _ => true)
    (show nextSat (blockStep (started 0x01 [0x4D, 0x59] (.dec false))) _ = true by decide)
  ⟨_, t, ht, by decide, by decide, by decide⟩

/-- For `EncodeChangedWhileRunning`: the second byte is changed between the first two internal steps. -/
theorem witness_EncodeChangedWhileRunning :
    ∃ (s : State) (bs : List Byte), s.phase = .idle ∧ s.port = some ⟨encodeWord (.enc true), bs⟩ ∧
      s.cfg.accepts bs.length = true ∧ PulsesAndChanges s.hostActions ∧ .disturb 1 ∈ s.hostActions :=
  ⟨{ given (encodeWord (.enc true)) [0x66, 0x6F] with hostActions := [.pulse, .pulse, .disturb 1, .pulse] },
    [0x66, 0x6F], rfl, rfl, rfl, by simp [PulsesAndChanges], by simp⟩

/-- For `DecodeChangedWhileRunning`. -/
theorem witness_DecodeChangedWhileRunning :
    ∃ (s : State) (text : List Byte), s.phase = .idle ∧ s.port = some ⟨encodeWord (.dec false), text⟩ ∧
      s.cfg.accepts text.length = true ∧ PulsesAndChanges s.hostActions ∧ .disturb 1 ∈ s.hostActions :=
  ⟨{ given (encodeWord (.dec false)) [0x4D, 0x59] with hostActions := [.pulse, .pulse, .disturb 1, .pulse] },
    [0x4D, 0x59], rfl, rfl, rfl, by simp [PulsesAndChanges], by simp⟩

theorem witness_SecondCommandWaitsForThePort :
    ∃ (s t : State) (c d : Command) (rest : List HostAction),
      s.hostActions = .present c :: rest ∧ s.port = some d ∧ step s = .next t ∧ t.port = some d :=
  have ⟨t, ht, hs⟩ := next_of_nextSat (f := fun t => t.port = some ⟨0x01, []⟩)
    (show nextSat (step { started 0x00 [0x66] (.enc false) with
      port := some ⟨0x01, []⟩, hostActions := [.present ⟨0x05, []⟩] }) _ = true by decide)
  ⟨_, t, ⟨0x05, []⟩, ⟨0x01, []⟩, [], rfl, rfl, ht, of_decide_eq_true hs⟩

theorem witness_SecondCommandWaitsForThePort_idle :
    ∃ (s t : State) (c d : Command) (rest : List HostAction),
      s.hostActions = .present c :: rest ∧ s.port = some d ∧ step s = .next t ∧ t.port = none :=
  have ⟨t, ht, hs⟩ := next_of_nextSat (f := fun t => t.port = none)
    (show nextSat (step { given 0x00 [0x66] with hostActions := [.present ⟨0x05, []⟩] }) _ = true by decide)
  ⟨_, t, ⟨0x05, []⟩, ⟨0x00, [0x66]⟩, [], rfl, rfl, ht, of_decide_eq_true hs⟩

theorem witness_OutputIsStagedInOrder :
    ∃ s t : State, s.Inv ∧ s.phase ≠ .idle ∧ blockStep s = .next t ∧ t.phase ≠ .idle :=
  have ⟨t, ht, hs⟩ := next_of_nextSat (f := fun t => t.phase ≠ .idle)
    (show nextSat (blockStep (started 0x04 [0x66] (.enc true))) _ = true by decide)
  ⟨_, t, started_enc_inv, by decide, ht, of_decide_eq_true hs⟩

/-- For `DisturbedEncodeRespondsForSomeInput` and `DisturbedDecodeRespondsForSomeInput`: with changes. -/
theorem witness_disturbed :
    ∃ (s : State) (bs : List Byte), s.n = bs.length ∧ s.input = Memory.ofBytes bs ∧ 1 ∈ s.changed :=
  ⟨{ bound [0x4D, 0x59] with changed := [1] }, [0x4D, 0x59], rfl, rfl, by decide⟩

theorem witness_CompletionCommitsTheStagedBytes :
    ∃ s t : State, s.Inv ∧ s.phase ≠ .idle ∧ blockStep s = .next t ∧ t.phase = .idle :=
  have ⟨t, ht, hs⟩ := next_of_nextSat (f := fun t => t.phase = .idle)
    (show nextSat (blockStep { started 0x00 [] (.enc false) with phase := .eTail }) _ = true by decide)
  ⟨_, t, ⟨by decide, by decide, by decide, by decide, by decide, by decide⟩, by decide, ht, of_decide_eq_true hs⟩

theorem witness_ResponseChangesOnlyAtCompletion_changed :
    ∃ s t : State, step s = .next t ∧ t.response ≠ s.response :=
  have ⟨t, ht, hs⟩ := next_of_nextSat (f := fun t => t.response ≠ (given 0x00 [0x66]).response)
    (show nextSat (step (given 0x00 [0x66])) _ = true by decide)
  ⟨_, t, ht, of_decide_eq_true hs⟩

theorem witness_CodesOutsideTheAlphabetAreInvalid :
    (0x31#8).toNat < 0x32 ∧ 0x38 ≤ (0x38#8).toNat ∧ (0x40#8).toNat ≤ 0x40 ∧ 0x61 ≤ (0x61#8).toNat ∧
      (0x7A#8).toNat ≤ 0x7A ∧ 0x5B ≤ (0x5B#8).toNat := by decide

/-- For the statements whose hypothesis is an accepted command's state alone: `EncodeOutputIsTheClosedForm`,
`EncodeEqualsTheTailDispatch`, `EncodeOutputLength`, `EncodePaddingIndependence`, `EncodeOutputClosure`,
`DecodeAcceptsExactlyTheEncodings`, `DecodeForbiddenLengths`, `DecodeCompletesWithItsFrame`. -/
theorem witness_holds : Holds (bound [0x66, 0x6F]) [0x66, 0x6F] := holds _

theorem witness_EncodeTailTable :
    Holds (bound [1, 2, 3, 4, 5, 6, 7, 8, 9]) [1, 2, 3, 4, 5, 6, 7, 8, 9] ∧
      [1, 2, 3, 4, 5, 6, 7, 8, 9].length = 5 * 1 + 4 ∧ Holds (bound []) [] ∧ ([] : List Byte).length = 5 * 0 + 0 :=
  ⟨holds _, rfl, holds _, rfl⟩

/-- For `EncodeOfEmptyIsEmpty` and `DecodeOfEmptyIsEmpty`. -/
theorem witness_empty : (bound []).n = 0 := rfl

theorem witness_EncodeFrame : ∃ (p : Bool) (s t : State) (bs : List Byte), Holds s bs ∧ exec (.enc p) s = .next t :=
  have ⟨t, ht, _⟩ := next_of_nextSat (f := fun _ => true)
    (show nextSat (exec (.enc true) (bound [0x66])) _ = true by decide)
  ⟨true, _, t, _, holds [0x66], ht⟩

theorem witness_RoundTripThroughTheMachine :
    Presented (given (encodeWord (.enc true)) [0x66]) ⟨encodeWord (.enc true), [0x66]⟩ ∧
      (given (encodeWord (.enc true)) [0x66]).cfg.accepts 1 = true ∧
      (given (encodeWord (.enc true)) [0x66]).cfg.accepts (8 * ((1 + 4) / 5)) = true :=
  ⟨presented _ _, by decide, by decide⟩

theorem witness_DecodeEqualsTheGroupView_unpadded :
    Holds (bound [0x4D, 0x59]) [0x4D, 0x59] ∧ phase1Ok false [0x4D, 0x59] ∧
      [0x4D#8, 0x59#8].take (payloadLen false [0x4D, 0x59]) = [12#5, 24#5].map alpha :=
  ⟨holds _, by decide, by decide⟩

theorem witness_DecodeEqualsTheGroupView_padded :
    Holds (bound [0x4D, 0x59, 0x3D, 0x3D, 0x3D, 0x3D, 0x3D, 0x3D]) [0x4D, 0x59, 0x3D, 0x3D, 0x3D, 0x3D, 0x3D, 0x3D] ∧
      phase1Ok true [0x4D, 0x59, 0x3D, 0x3D, 0x3D, 0x3D, 0x3D, 0x3D] ∧
      [0x4D#8, 0x59, 0x3D, 0x3D, 0x3D, 0x3D, 0x3D, 0x3D].take
        (payloadLen true [0x4D, 0x59, 0x3D, 0x3D, 0x3D, 0x3D, 0x3D, 0x3D]) = [12#5, 24#5].map alpha :=
  ⟨holds _, by decide, by decide⟩

theorem witness_DecodeLengthCheck :
    (bound [0x4D, 0x59]).n % 8 ≠ 0 ∧ (bound [0, 0, 0, 0, 0, 0, 0]).n % 8 ≠ 0 ∧ (bound []).n = 0 := by decide

theorem witness_DecodePaddingRun :
    Holds (bound (List.replicate 8 0x3D#8)) (List.replicate 8 0x3D#8) ∧ (List.replicate 8 0x3D#8).length % 8 = 0 ∧
      7 < padRun (List.replicate 8 0x3D#8) := ⟨holds _, by decide, by decide⟩

theorem witness_DecodePayloadLength :
    Holds (bound (0x41#8 :: List.replicate 7 0x3D#8)) (0x41#8 :: List.replicate 7 0x3D#8) ∧
      (0x41#8 :: List.replicate 7 0x3D#8).length % 8 = 0 ∧ padRun (0x41#8 :: List.replicate 7 0x3D#8) = 7 :=
  ⟨holds _, by decide, by decide⟩

theorem witness_DecodeForbiddenRemainder :
    Holds (bound [0x4D]) [0x4D] ∧ payloadLen false [0x4D] % 8 = 1 ∧ payloadLen false [0x4D, 0x5A, 0x58] % 8 = 3 ∧
      Holds (bound [0x4D, 0x5A, 0x58, 0x57, 0x36, 0x59, 0x3D, 0x3D]) [0x4D, 0x5A, 0x58, 0x57, 0x36, 0x59, 0x3D, 0x3D] ∧
      padRun [0x4D, 0x5A, 0x58, 0x57, 0x36, 0x59, 0x3D, 0x3D] ≤ 7 ∧
      payloadLen true [0x4D, 0x5A, 0x58, 0x57, 0x36, 0x59, 0x3D, 0x3D] % 8 = 6 :=
  ⟨holds _, by decide, by decide, holds _, by decide, by decide⟩

theorem witness_DecodeInvalidCharacter :
    Holds (bound [0x4D, 0x5A, 0x31, 0x51]) [0x4D, 0x5A, 0x31, 0x51] ∧ phase1Ok false [0x4D, 0x5A, 0x31, 0x51] ∧
      2 < payloadLen false [0x4D, 0x5A, 0x31, 0x51] ∧ [0x4D#8, 0x5A, 0x31, 0x51][2]? = some 0x31#8 ∧ rev 0x31#8 = none ∧
      ∀ k, k < 2 → ∃ d v, [0x4D#8, 0x5A, 0x31, 0x51][k]? = some d ∧ rev d = some v :=
  ⟨holds _, by decide, by decide, by decide, by decide, fun k hk => by
    match k, hk with
    | 0, _ => exact ⟨0x4D#8, 12#5, by decide, by decide⟩
    | 1, _ => exact ⟨0x5A#8, 25#5, by decide, by decide⟩⟩

theorem witness_DecodePaddingInPayloadFails :
    Holds (bound [0x4D, 0x59, 0x3D, 0x41, 0x3D, 0x3D, 0x3D, 0x3D]) [0x4D, 0x59, 0x3D, 0x41, 0x3D, 0x3D, 0x3D, 0x3D] ∧
      2 < payloadLen true [0x4D, 0x59, 0x3D, 0x41, 0x3D, 0x3D, 0x3D, 0x3D] ∧
      [0x4D#8, 0x59, 0x3D, 0x41, 0x3D, 0x3D, 0x3D, 0x3D][2]? = some padChar :=
  ⟨holds _, by decide, by decide⟩

theorem witness_DecodeTailBits :
    Holds (bound [0x4D, 0x5A]) [0x4D, 0x5A] ∧ phase1Ok false [0x4D, 0x5A] ∧
      [0x4D#8, 0x5A#8].take (payloadLen false [0x4D, 0x5A]) = ([12#5] ++ [25#5]).map alpha :=
  ⟨holds _, by decide, by decide⟩

theorem witness_DecodeOutputLength :
    ∃ (p : Bool) (s t : State) (text : List Byte), Holds s text ∧ exec (.dec p) s = .next t ∧ t.status = 1#2 :=
  have ⟨t, ht, hs⟩ := next_of_nextSat (f := fun t => t.status = 1#2)
    (show nextSat (exec (.dec false) (bound [0x4D, 0x59])) _ = true by decide)
  ⟨false, _, t, _, holds [0x4D, 0x59], ht, of_decide_eq_true hs⟩

theorem witness_DecodeAllPaddingFails :
    Holds (bound (List.replicate (7 + 1) padChar)) (List.replicate (7 + 1) padChar) := holds _

theorem witness_DecodeForbiddenLengths :
    ([0x4D, 0x5A, 0x58, 0x57, 0x36, 0x59, 0x54, 0x42, 0x4F] : List Byte).length % 8 = 1 ∧
      padRun [0x4D, 0x5A, 0x58, 0x57, 0x36, 0x59, 0x3D, 0x3D] = 2 ∧
      padRun [0x4D, 0x5A, 0x58, 0x3D, 0x3D, 0x3D, 0x3D, 0x3D] = 5 ∧
      padRun [0x41, 0x3D, 0x3D, 0x3D, 0x3D, 0x3D, 0x3D, 0x3D] = 7 := by decide

theorem witness_EveryLineFormAssembles :
    MnemonicText ['C', 'M', 'D', ' ', '0', 'x', 'F', 'D'] 0xFD#8 ∧ MnemonicText ['D', 'E', 'C', '.', 'P'] 0x05#8 ∧
      InputText ['x', '"', '6', '6', ' ', '6', 'F', '"'] [0x66#8, 0x6F#8] ∧ InputText ['"', '"'] [] :=
  ⟨.cmd 0xFD#8, .decP, .hex [0x66#8, 0x6F#8], .quoted [] (by simp)⟩

theorem witness_QuotedLineAssembles : ∀ c ∈ ['M', ';', ' '], c ≠ '"' ∧ c.toNat < 128 := by simp

end Sys2Proof.Witnesses
end

/-! The command word through its fields (R61, R63 of 30_encoding.md): what the decoder answers on each OP and RSV,
and what masking with 0xFB keeps of a word. -/

namespace Sys2Proof

/-! ### The decoder, by the fields of the word -/

@[simp] theorem withRsvZero_eq_ok_iff {w : Byte} {i j : Instr} :
    withRsvZero w i = .ok j ↔ rsvField w = 0#5 ∧ j = i := by
  by_cases h : rsvField w = 0#5 <;> simp [withRsvZero, h, eq_comm (a := i)]

theorem decodeWord_eq_ok_enc_iff {w : Byte} {p : Bool} :
    decodeWord w = .ok (.enc p) ↔ rsvField w = 0#5 ∧ opField w = 0#2 ∧ p = policyField w := by
  unfold decodeWord
  split
  · simp [*]
  · split <;> simp [*]

theorem decodeWord_eq_ok_dec_iff {w : Byte} {p : Bool} :
    decodeWord w = .ok (.dec p) ↔ rsvField w = 0#5 ∧ opField w = 1#2 ∧ p = policyField w := by
  unfold decodeWord
  split
  · simp [*]
  · split <;> simp [*]

/-- A word is reserved exactly if it is neither command's, whatever its P. -/
theorem exists_decodeWord_eq_error_iff {w : Byte} :
    (∃ e, decodeWord w = .error e) ↔ ∀ p, decodeWord w ≠ .ok (.enc p) ∧ decodeWord w ≠ .ok (.dec p) := by
  rcases decodeWord w with e | (q | q) <;> simp

/-! ### The word of given fields, and the mask 0xFB -/

theorem getLsbD_cmd8 (rsv : BitVec 5) (p : Bool) (op : BitVec 2) (i : Nat) :
    (cmd8 rsv p op).getLsbD i =
      if i < 2 then op.getLsbD i
      else if i - 2 < 1 then (BitVec.ofBool p).getLsbD (i - 2) else rsv.getLsbD (i - 2 - 1) := by
  unfold cmd8
  rw [BitVec.getLsbD_append, BitVec.getLsbD_append]

@[simp] theorem opField_cmd8 (rsv : BitVec 5) (p : Bool) (op : BitVec 2) : opField (cmd8 rsv p op) = op :=
  BitVec.extractLsb'_append_eq_right

@[simp] theorem rsvField_cmd8 (rsv : BitVec 5) (p : Bool) (op : BitVec 2) : rsvField (cmd8 rsv p op) = rsv := by
  refine BitVec.eq_of_getLsbD_eq fun i hi => ?_
  rw [rsvField, BitVec.getLsbD_extractLsb', getLsbD_cmd8]
  simp [hi, show ¬ 3 + i < 2 by omega, show ¬ 3 + i - 2 < 1 by omega, show 3 + i - 2 - 1 = i by omega]

/-- 0xFB clears P and keeps RSV and OP. -/
theorem and_0xFB_eq_cmd8 (w : Byte) : w &&& 0xFB#8 = cmd8 (rsvField w) false (opField w) := by
  refine BitVec.eq_of_getLsbD_eq fun i hi => ?_
  rw [getLsbD_cmd8]
  interval_cases i <;> simp [rsvField, opField]

theorem cmd8_false_inj {r r' : BitVec 5} {o o' : BitVec 2} :
    cmd8 r false o = cmd8 r' false o' ↔ r = r' ∧ o = o' := by
  refine ⟨fun h => ⟨?_, ?_⟩, fun ⟨hr, ho⟩ => by rw [hr, ho]⟩
  · simpa using congrArg rsvField h
  · simpa using congrArg opField h

/-- A word matches an OP with RSV = 0 and any P. -/
theorem and_0xFB_eq_cmd8_iff {w : Byte} {op : BitVec 2} :
    w &&& 0xFB#8 = cmd8 0#5 false op ↔ rsvField w = 0#5 ∧ opField w = op := by
  rw [and_0xFB_eq_cmd8, cmd8_false_inj]

/-! ### The map -/

theorem decodeWord_eq_ok_enc_iff_mask {w : Byte} {p : Bool} :
    decodeWord w = .ok (.enc p) ↔ w &&& 0xFB#8 = 0x00#8 ∧ p = w.getLsbD 2 := by
  rw [show (0x00#8 : Byte) = cmd8 0#5 false 0#2 from rfl, and_0xFB_eq_cmd8_iff, decodeWord_eq_ok_enc_iff, and_assoc,
    policyField]

theorem decodeWord_eq_ok_dec_iff_mask {w : Byte} {p : Bool} :
    decodeWord w = .ok (.dec p) ↔ w &&& 0xFB#8 = 0x01#8 ∧ p = w.getLsbD 2 := by
  rw [show (0x01#8 : Byte) = cmd8 0#5 false 1#2 from rfl, and_0xFB_eq_cmd8_iff, decodeWord_eq_ok_dec_iff, and_assoc,
    policyField]

/-- Settles O8: ENCODE and DECODE by OP and RSV, which are what the mask 0xFB keeps; a reserved word is neither. -/
theorem commandMapMatchesMask : Obligations.CommandMapMatchesMask := by
  intro w p
  refine ⟨decodeWord_eq_ok_enc_iff_mask, decodeWord_eq_ok_dec_iff_mask, ?_⟩
  simp [exists_decodeWord_eq_error_iff, decodeWord_eq_ok_enc_iff_mask, decodeWord_eq_ok_dec_iff_mask, forall_and]

end Sys2Proof

/-! The lookup tables (R80 to R87 of 40_charset.md): what each table holds, then ALPHA by R81's formula and REV as
its inverse, from which the laws follow. -/

namespace Sys2Proof

open Machine

/-! ### The tables, entry by entry -/

/-- The 32 entries of ROM_ALPHA are R81's formula. -/
theorem toNat_alpha (d : Digit) :
    (alpha d).toNat = if d.toNat ≤ 25 then 0x41 + d.toNat else 0x32 + (d.toNat - 26) := by
  decide +revert

/-- An entry of ROM_REV that holds a digit stands at that digit's code (R83). -/
theorem alpha_of_revEntry_romRev : ∀ (j : Fin 41) (d : Digit),
    revEntry romRev[j] = some d → (alpha d).toNat = 0x32 + j := by
  decide

/-- REV finds every entry of ROM_ALPHA (R83). -/
@[simp] theorem rev_alpha (d : Digit) : rev (alpha d) = some d := by
  decide +revert

/-! ### REV is the inverse of ALPHA -/

/-- The range test of R84 keeps the read inside ROM_REV, so a digit comes from the entry at c - 0x32. -/
theorem exists_revEntry_of_rev_eq_some {c : Byte} {d : Digit} (h : rev c = some d) :
    ∃ j : Fin 41, c.toNat = 0x32 + j ∧ revEntry romRev[j] = some d := by
  unfold rev at h
  split at h
  next => cases h
  next hc =>
    have hj : c.toNat - 0x32 < 41 := by bv_omega
    refine ⟨⟨c.toNat - 0x32, hj⟩, by bv_omega, ?_⟩
    simpa [Vector.getElem?_eq_getElem hj] using h

theorem rev_eq_some_iff {c : Byte} {d : Digit} : rev c = some d ↔ alpha d = c := by
  constructor
  · intro h
    obtain ⟨j, hcj, hj⟩ := exists_revEntry_of_rev_eq_some h
    exact BitVec.eq_of_toNat_eq ((alpha_of_revEntry_romRev j d hj).trans hcj.symm)
  · rintro rfl
    exact rev_alpha d

theorem alpha_inj {d e : Digit} : alpha d = alpha e ↔ d = e := by
  rw [← rev_eq_some_iff, rev_alpha, Option.some_inj, eq_comm]

/-! ### The alphabet's codes -/

theorem exists_alpha_eq_iff {c : Byte} : (∃ d, alpha d = c) ↔
    (0x32 ≤ c.toNat ∧ c.toNat ≤ 0x37) ∨ (0x41 ≤ c.toNat ∧ c.toNat ≤ 0x5A) := by
  constructor
  · rintro ⟨d, rfl⟩
    rw [toNat_alpha]
    split <;> omega
  · rintro (hc | hc)
    · refine ⟨BitVec.ofNat 5 (26 + (c.toNat - 0x32)), BitVec.eq_of_toNat_eq ?_⟩
      rw [toNat_alpha, BitVec.toNat_ofNat]
      split <;> omega
    · refine ⟨BitVec.ofNat 5 (c.toNat - 0x41), BitVec.eq_of_toNat_eq ?_⟩
      rw [toNat_alpha, BitVec.toNat_ofNat]
      split <;> omega

theorem isSome_rev_iff {c : Byte} : (rev c).isSome ↔
    (0x32 ≤ c.toNat ∧ c.toNat ≤ 0x37) ∨ (0x41 ≤ c.toNat ∧ c.toNat ≤ 0x5A) := by
  simp only [Option.isSome_iff_exists, rev_eq_some_iff, exists_alpha_eq_iff]

theorem alpha_ne_padChar (d : Digit) : alpha d ≠ padChar := fun h =>
  absurd (exists_alpha_eq_iff.mp ⟨d, h⟩) (by decide)

/-- The codes with a digit, in ascending order: '2'..'7', then 'A'..'Z'. -/
theorem filter_isSome_rev :
    ((List.range 256).filter fun c => (rev (BitVec.ofNat 8 c)).isSome) = List.range' 0x32 6 ++ List.range' 0x41 26 := by
  have hcodes : ∀ c ∈ List.range 256, (rev (BitVec.ofNat 8 c)).isSome =
      decide ((0x32 ≤ c ∧ c ≤ 0x37) ∨ (0x41 ≤ c ∧ c ≤ 0x5A)) := fun c hc => by
    rw [Bool.eq_iff_iff, isSome_rev_iff, BitVec.toNat_ofNat, Nat.mod_eq_of_lt (List.mem_range.mp hc), decide_eq_true_iff]
  rw [List.filter_congr hcodes]
  decide

/-! ### The laws -/

/-- Settles O28: the first clause is ROM_ALPHA's content, the others follow from it and from REV. -/
theorem alphaIsTheAlphabet : Obligations.AlphaIsTheAlphabet := by
  refine ⟨fun d => BitVec.eq_of_toNat_eq ?_, fun d e => alpha_inj.mp, fun c => exists_alpha_eq_iff, alpha_ne_padChar⟩
  rw [toNat_alpha]
  split <;> rw [BitVec.toNat_ofNat] <;> omega

/-- Settles O29: REV(c) = d exactly if ALPHA[d] = c, and the codes with a digit are '2'..'7' and 'A'..'Z'. -/
theorem lookupsAreInverse : Obligations.LookupsAreInverse := by
  refine ⟨rev_alpha, fun c d => rev_eq_some_iff.mp, ?_⟩
  rw [filter_isSome_rev, List.length_append, List.length_range', List.length_range']

/-- Settles O30: a code with a digit lies in 0x32..0x37 or 0x41..0x5A, and R86's ranges meet neither. -/
theorem codesOutsideTheAlphabetAreInvalid : Obligations.CodesOutsideTheAlphabetAreInvalid := by
  intro c hc
  rw [← Option.not_isSome_iff_eq_none, isSome_rev_iff]
  omega

end Sys2Proof

/-! Bit streams as numbers (R9, R43, R101 of 41_encode.md): a list of bits is its length and its value; a stream of
5-bit digits is read back digit by digit. -/

namespace Sys2Proof

open Machine Spec

/-! ### The value of a list of bits -/

@[simp] theorem bitsValue_nil : bitsValue [] = 0 := rfl

theorem bitsValue_concat (l : List Bool) (b : Bool) : bitsValue (l ++ [b]) = 2 * bitsValue l + b.toNat := by
  simp [bitsValue]

theorem bitsValue_append (l l' : List Bool) :
    bitsValue (l ++ l') = bitsValue l * 2 ^ l'.length + bitsValue l' := by
  induction l' using List.reverseRecOn with
  | nil => simp
  | append_singleton l' b ih =>
    rw [← List.append_assoc, bitsValue_concat, bitsValue_concat, ih, List.length_append, List.length_singleton]
    ring

theorem bitsValue_replicate_false (z : Nat) : bitsValue (List.replicate z false) = 0 := by
  induction z with
  | zero => rfl
  | succ z ih => rw [List.replicate_succ', bitsValue_concat, ih]; rfl

theorem bitsValue_lt (l : List Bool) : bitsValue l < 2 ^ l.length := by
  induction l using List.reverseRecOn with
  | nil => simp
  | append_singleton l b ih =>
    have hb : b.toNat ≤ 1 := Bool.toNat_le b
    rw [bitsValue_concat, List.length_append, List.length_singleton, pow_succ]
    omega

/-- Of the lists of one length, a value has one. -/
theorem eq_of_bitsValue_eq {l l' : List Bool} (hlen : l.length = l'.length) (h : bitsValue l = bitsValue l') :
    l = l' := by
  induction l using List.reverseRecOn generalizing l' with
  | nil => exact (List.length_eq_zero_iff.mp hlen.symm).symm
  | append_singleton l b ih =>
    obtain rfl | ⟨l', b', rfl⟩ := l'.eq_nil_or_concat
    · simp at hlen
    · rw [List.concat_eq_append, bitsValue_concat, bitsValue_concat] at *
      have hb : b = b' := by cases b <;> cases b' <;> simp at h ⊢ <;> omega
      subst hb
      rw [ih (by simpa using hlen) (by omega)]

/-! ### The bits of bytes and of digits -/

/-- The bits of a digit, bit 4 first (R101). -/
def digitBits (d : Digit) : List Bool :=
  [d.getLsbD 4, d.getLsbD 3, d.getLsbD 2, d.getLsbD 1, d.getLsbD 0]

/-- The bit stream of a digit sequence, as `bitStream` is that of a byte sequence. -/
def digitStream (ds : List Digit) : List Bool := ds.flatMap digitBits

@[simp] theorem length_bitsOf (b : Byte) : (bitsOf b).length = 8 := rfl

@[simp] theorem length_digitBits (d : Digit) : (digitBits d).length = 5 := rfl

theorem bitsValue_bitsOf (b : Byte) : bitsValue (bitsOf b) = b.toNat := by
  decide +revert

theorem bitsValue_digitBits (d : Digit) : bitsValue (digitBits d) = d.toNat := by
  decide +revert

@[simp] theorem bitStream_append (bs bs' : List Byte) : bitStream (bs ++ bs') = bitStream bs ++ bitStream bs' :=
  List.flatMap_append

@[simp] theorem digitStream_append (ds ds' : List Digit) :
    digitStream (ds ++ ds') = digitStream ds ++ digitStream ds' :=
  List.flatMap_append

@[simp] theorem digitStream_cons (d : Digit) (ds : List Digit) :
    digitStream (d :: ds) = digitBits d ++ digitStream ds :=
  List.flatMap_cons

@[simp] theorem length_bitStream (bs : List Byte) : (bitStream bs).length = 8 * bs.length := by
  simp [bitStream, List.length_flatMap, mul_comm]

@[simp] theorem length_digitStream (ds : List Digit) : (digitStream ds).length = 5 * ds.length := by
  simp [digitStream, List.length_flatMap, mul_comm]

theorem bitsValue_bitStream_concat (bs : List Byte) (b : Byte) :
    bitsValue (bitStream (bs ++ [b])) = bitsValue (bitStream bs) * 2 ^ 8 + b.toNat := by
  rw [bitStream_append, show bitStream [b] = bitsOf b from List.flatMap_singleton .., bitsValue_append,
    bitsValue_bitsOf, length_bitsOf]

theorem bitsValue_digitStream_concat (ds : List Digit) (d : Digit) :
    bitsValue (digitStream (ds ++ [d])) = bitsValue (digitStream ds) * 2 ^ 5 + d.toNat := by
  rw [digitStream_append, show digitStream [d] = digitBits d from List.flatMap_singleton .., bitsValue_append,
    bitsValue_digitBits, length_digitBits]

/-! ### Cutting a stream into digits -/

theorem digitBits_ofNat_bitsValue {l : List Bool} (h : l.length = 5) :
    digitBits (BitVec.ofNat 5 (bitsValue l)) = l := by
  refine eq_of_bitsValue_eq (by rw [length_digitBits, h]) ?_
  rw [bitsValue_digitBits, BitVec.toNat_ofNat, Nat.mod_eq_of_lt (h ▸ bitsValue_lt l)]

/-- A stream whose length is a multiple of 5 is a digit sequence's. -/
theorem exists_digitStream_eq {m : Nat} {l : List Bool} (h : l.length = 5 * m) :
    ∃ ds, digitStream ds = l := by
  induction m generalizing l with
  | zero => exact ⟨[], (List.length_eq_zero_iff.mp h).symm⟩
  | succ m ih =>
    obtain ⟨ds, hds⟩ := ih (l := l.drop 5) (by rw [List.length_drop]; omega)
    refine ⟨BitVec.ofNat 5 (bitsValue (l.take 5)) :: ds, ?_⟩
    rw [digitStream_cons, digitBits_ofNat_bitsValue (by rw [List.length_take]; omega), hds, List.take_append_drop]

theorem drop_digitStream (ds : List Digit) (j : Nat) :
    (digitStream ds).drop (5 * j) = digitStream (ds.drop j) := by
  induction j generalizing ds with
  | zero => rfl
  | succ j ih =>
    cases ds with
    | nil => exact List.drop_nil
    | cons d ds => 
      rw [digitStream_cons, mul_add_one, add_comm, List.drop_succ_cons, ← ih ds]
      exact List.drop_length_add_append (l₁ := digitBits d) ..

theorem take_digitStream (ds : List Digit) (j : Nat) :
    (digitStream ds).take (5 * j) = digitStream (ds.take j) := by
  induction j generalizing ds with
  | zero => rfl
  | succ j ih =>
    cases ds with
    | nil => exact List.take_nil
    | cons d ds => 
      rw [digitStream_cons, mul_add_one, add_comm, List.take_succ_cons, digitStream_cons, ← ih ds]
      exact List.take_length_add_append (l₁ := digitBits d) ..

/-- Digit j of a digit sequence's stream is its element j. -/
theorem ofNat_bitsValue_digitStream {ds : List Digit} {j : Nat} (h : j < ds.length) :
    BitVec.ofNat 5 (bitsValue (((digitStream ds).drop (5 * j)).take 5)) = ds[j] := by
  rw [drop_digitStream, List.drop_eq_getElem_cons h, digitStream_cons, List.take_left' (length_digitBits _),
    bitsValue_digitBits, BitVec.ofNat_toNat, BitVec.setWidth_eq]

end Sys2Proof

/-! The closed form of ENCODE and the forms R102, R103 and R114 of 41_encode.md give of it. The padded stream of a byte
sequence is one digit sequence's stream, and the characters are those digits through ALPHA. -/

namespace Sys2Proof

open Machine Spec

/-! ### The counts (R102, R103) -/

theorem charCount_add_mul (n q : Nat) : charCount (5 * q + n) = 8 * q + charCount n := by
  unfold charCount
  omega

theorem charCount_tail {k : Nat} (h : k < 5) : charCount k = tailChars k := by
  interval_cases k <;> rfl

theorem tailZeros_eq (n : Nat) : tailZeros (n % 5) = 5 * charCount n - 8 * n := by
  have h : n % 5 < 5 := Nat.mod_lt _ (by norm_num)
  have hn : 5 * charCount n - 8 * n = 5 * charCount (n % 5) - 8 * (n % 5) := by
    unfold charCount
    omega
  rw [hn]
  interval_cases n % 5 <;> rfl

theorem padCount_add_mul (n q : Nat) : padCount (5 * q + n) = padCount n := by
  rw [padCount, padCount, charCount_add_mul, Nat.mul_add_mod]

theorem padCount_tail {k : Nat} (h : k < 5) : padCount k = tailPads k := by
  interval_cases k <;> rfl

/-- P = 1 completes the last group of 8. -/
theorem charCount_add_padCount (n : Nat) : charCount n + padCount n = 8 * ((n + 4) / 5) := by
  unfold padCount charCount
  omega

/-! ### The characters as digits -/

theorem length_paddedStream (bs : List Byte) : (paddedStream bs).length = 5 * charCount bs.length := by
  rw [paddedStream, List.length_append, length_bitStream, List.length_replicate]
  unfold charCount
  omega

theorem bitsValue_paddedStream (bs : List Byte) :
    bitsValue (paddedStream bs) = bitsValue (bitStream bs) * 2 ^ (5 * charCount bs.length - 8 * bs.length) := by
  rw [paddedStream, bitsValue_append, bitsValue_replicate_false, List.length_replicate, add_zero]

/-- Whole groups of 5 bytes have no zero fill. -/
theorem paddedStream_append {as bs : List Byte} {q : Nat} (h : as.length = 5 * q) :
    paddedStream (as ++ bs) = bitStream as ++ paddedStream bs := by
  have hz : 5 * charCount (as.length + bs.length) - 8 * (as.length + bs.length) =
      5 * charCount bs.length - 8 * bs.length := by
    rw [h, charCount_add_mul]
    omega
  rw [paddedStream, bitStream_append, List.length_append, hz, List.append_assoc, paddedStream]

theorem paddedStream_of_groups {as : List Byte} {q : Nat} (h : as.length = 5 * q) :
    paddedStream as = bitStream as := by
  have := paddedStream_append (bs := []) h
  rwa [List.append_nil, show paddedStream [] = [] from rfl, List.append_nil] at this

theorem exists_digitStream_eq_paddedStream (bs : List Byte) : ∃ ds, digitStream ds = paddedStream bs :=
  exists_digitStream_eq (length_paddedStream bs)

theorem length_of_digitStream_eq {bs : List Byte} {ds : List Digit} (h : digitStream ds = paddedStream bs) :
    ds.length = charCount bs.length := by
  have := congrArg List.length h
  rw [length_digitStream, length_paddedStream] at this
  omega

/-- R101: the characters are the digits of the padded stream through ALPHA. -/
theorem encodeChars_eq_map_alpha {bs : List Byte} {ds : List Digit} (h : digitStream ds = paddedStream bs) :
    encodeChars bs = ds.map alpha := by
  have hlen := length_of_digitStream_eq h
  refine List.ext_getElem (by simp [encodeChars, hlen]) fun j _ hj => ?_
  rw [List.length_map] at hj
  simp [encodeChars, streamDigit, ← h, ofNat_bitsValue_digitStream hj]

@[simp] theorem length_encodeChars (bs : List Byte) : (encodeChars bs).length = charCount bs.length := by
  simp [encodeChars]

theorem exists_alpha_of_mem_encodeChars {bs : List Byte} {c : Byte} (h : c ∈ encodeChars bs) : ∃ d, alpha d = c := by
  obtain ⟨j, _, hj⟩ := List.mem_map.mp h
  exact ⟨_, hj⟩

theorem padChar_notMem_encodeChars (bs : List Byte) : padChar ∉ encodeChars bs := fun h => by
  obtain ⟨d, hd⟩ := exists_alpha_of_mem_encodeChars h
  exact alpha_ne_padChar d hd

/-- The characters of whole groups depend on their bytes alone (R113). -/
theorem encodeChars_append {as bs : List Byte} {q : Nat} (h : as.length = 5 * q) :
    encodeChars (as ++ bs) = encodeChars as ++ encodeChars bs := by
  obtain ⟨ds, hds⟩ := exists_digitStream_eq_paddedStream as
  obtain ⟨es, hes⟩ := exists_digitStream_eq_paddedStream bs
  have happ : digitStream (ds ++ es) = paddedStream (as ++ bs) := by
    rw [digitStream_append, hds, hes, paddedStream_append h, paddedStream_of_groups h]
  rw [encodeChars_eq_map_alpha happ, List.map_append, encodeChars_eq_map_alpha hds, encodeChars_eq_map_alpha hes]

/-- Removing the trailing '=' of a text removes its padding and no more, where no character is '='. -/
theorem dropWhile_padChar_reverse {chars : List Byte} (h : padChar ∉ chars) (c : Nat) :
    ((chars ++ List.replicate c padChar).reverse.dropWhile (· = padChar)).reverse = chars := by
  have hself : chars.reverse.dropWhile (· = padChar) = chars.reverse := by
    refine List.dropWhile_eq_self_iff.mpr fun hl he => h ?_
    have hmem : chars.reverse[0] ∈ chars := List.mem_reverse.mp (List.getElem_mem hl)
    rwa [of_decide_eq_true he] at hmem
  rw [List.reverse_append, List.reverse_replicate, List.dropWhile_append_of_pos (by simp), hself, List.reverse_reverse]

/-- R103, R106: the last digit ends in the zero fill. -/
theorem lastDigit_mod_tailZeros {bs : List Byte} {d : Digit} (h : (encodeChars bs).getLast? = some (alpha d)) :
    d.toNat % 2 ^ tailZeros (bs.length % 5) = 0 := by
  obtain ⟨ds, hds⟩ := exists_digitStream_eq_paddedStream bs
  rw [encodeChars_eq_map_alpha hds, List.getLast?_eq_some_iff] at h
  obtain ⟨ys, hys⟩ := h
  obtain ⟨ds, es, rfl, -, he⟩ := List.map_eq_append_iff.mp hys
  obtain ⟨e, rfl, hed⟩ := List.map_eq_singleton_iff.mp he
  obtain rfl := alpha_inj.mp hed
  have hz : tailZeros (bs.length % 5) ≤ 5 := by
    rw [tailZeros_eq]; unfold charCount; omega
  have hv : bitsValue (digitStream ds) * 2 ^ 5 + e.toNat =
      bitsValue (bitStream bs) * 2 ^ tailZeros (bs.length % 5) := by
    rw [← bitsValue_digitStream_concat, hds, bitsValue_paddedStream, tailZeros_eq]
  have hdvd : 2 ^ tailZeros (bs.length % 5) ∣ bitsValue (digitStream ds) * 2 ^ 5 + e.toNat :=
    hv ▸ Nat.dvd_mul_left _ _
  exact Nat.mod_eq_zero_of_dvd
    ((Nat.dvd_add_right (Dvd.dvd.mul_left (pow_dvd_pow 2 hz) _)).mp hdvd)

/-! ### The text -/

/-- The text is the characters and the '=' of R107. -/
theorem encodeText_eq (p : Bool) (bs : List Byte) :
    encodeText p bs = encodeChars bs ++ padTail p (padCount bs.length) := rfl

/-! ### The group formulas and the dispatch on the tail (R113, R114) -/

/-- The 8 digits of R113. -/
def groupDigits (b0 b1 b2 b3 b4 : Byte) : List Digit :=
  [b0.extractLsb' 3 5, b0.extractLsb' 0 3 ++ b1.extractLsb' 6 2, b1.extractLsb' 1 5,
   b1.extractLsb' 0 1 ++ b2.extractLsb' 4 4, b2.extractLsb' 0 4 ++ b3.extractLsb' 7 1,
   b3.extractLsb' 2 5, b3.extractLsb' 0 2 ++ b4.extractLsb' 5 3, b4.extractLsb' 0 5]

theorem group8_eq_map_alpha (b0 b1 b2 b3 b4 : Byte) :
    group8 b0 b1 b2 b3 b4 = (groupDigits b0 b1 b2 b3 b4).map alpha := rfl

theorem digitStream_groupDigits (b0 b1 b2 b3 b4 : Byte) :
    digitStream (groupDigits b0 b1 b2 b3 b4) = bitStream [b0, b1, b2, b3, b4] := by
  simp only [digitStream, groupDigits, digitBits, bitStream, bitsOf, List.flatMap_cons, List.flatMap_nil,
    List.cons_append, List.nil_append]
  grind

theorem bitStream_replicate_zero (z : Nat) : bitStream (List.replicate z 0#8) = List.replicate (8 * z) false := by
  rw [bitStream, List.flatMap_replicate, show bitsOf 0#8 = List.replicate 8 false from rfl,
    List.flatten_replicate_replicate, mul_comm]

/-- R114: the characters of a partial group are the first of the group in which the missing bytes are 0. -/
theorem encodeChars_eq_take_group8 {bs : List Byte} {b0 b1 b2 b3 b4 : Byte} {k : Nat} (hk : bs.length = k)
    (h : bs ++ List.replicate (5 - k) 0#8 = [b0, b1, b2, b3, b4]) :
    encodeChars bs = (group8 b0 b1 b2 b3 b4).take (charCount k) := by
  have hlen : bs.length + (5 - k) = 5 := by simpa using congrArg List.length h
  have hfill : 8 * bs.length ≤ 5 * charCount k ∧ 5 * charCount k - 8 * bs.length ≤ 8 * (5 - k) := by
    unfold charCount
    omega
  have hs : digitStream ((groupDigits b0 b1 b2 b3 b4).take (charCount k)) = paddedStream bs := by
    rw [← take_digitStream, digitStream_groupDigits, ← h, bitStream_append, bitStream_replicate_zero, List.take_append,
      length_bitStream, List.take_of_length_le (by rw [length_bitStream]; exact hfill.1), List.take_replicate,
      min_eq_left hfill.2, paddedStream, hk]
  rw [encodeChars_eq_map_alpha hs, group8_eq_map_alpha, List.map_take]

/-- R114: the text of a partial group of k bytes. -/
theorem encodeText_tail (p : Bool) {bs : List Byte} {b0 b1 b2 b3 b4 : Byte} {k : Nat} (hk : bs.length = k) (hk5 : k < 5)
    (h : bs ++ List.replicate (5 - k) 0#8 = [b0, b1, b2, b3, b4]) :
    encodeText p bs = (group8 b0 b1 b2 b3 b4).take (tailChars k) ++ padTail p (tailPads k) := by
  rw [encodeText_eq, encodeChars_eq_take_group8 hk h, hk, charCount_tail hk5, padCount_tail hk5]

/-- R113: a full group gives its 8 characters before the text of the bytes after it. -/
theorem encodeText_group (p : Bool) (b0 b1 b2 b3 b4 : Byte) (rest : List Byte) :
    encodeText p (b0 :: b1 :: b2 :: b3 :: b4 :: rest) = group8 b0 b1 b2 b3 b4 ++ encodeText p rest := by
  have hg : encodeChars [b0, b1, b2, b3, b4] = group8 b0 b1 b2 b3 b4 := encodeChars_eq_take_group8 (k := 5) rfl rfl
  calc encodeText p ([b0, b1, b2, b3, b4] ++ rest)
      = encodeChars ([b0, b1, b2, b3, b4] ++ rest) ++ padTail p (padCount (5 * 1 + rest.length)) := by
        rw [encodeText_eq, List.length_append]; rfl
    _ = group8 b0 b1 b2 b3 b4 ++ encodeText p rest := by
        rw [encodeChars_append (q := 1) rfl, hg, padCount_add_mul, List.append_assoc, encodeText_eq]

/-- R114: the dispatch form gives the closed form. -/
theorem encodeDispatch_eq_encodeText (p : Bool) : ∀ bs, encodeDispatch p bs = encodeText p bs
  | b0 :: b1 :: b2 :: b3 :: b4 :: rest => by
    rw [encodeDispatch, encodeDispatch_eq_encodeText p rest, encodeText_group]
  | [b0, b1, b2, b3] => (encodeText_tail p (bs := [b0, b1, b2, b3]) (k := 4) rfl (by decide) rfl).symm
  | [b0, b1, b2] => (encodeText_tail p (bs := [b0, b1, b2]) (k := 3) rfl (by decide) rfl).symm
  | [b0, b1] => (encodeText_tail p (bs := [b0, b1]) (k := 2) rfl (by decide) rfl).symm
  | [b0] => (encodeText_tail p (bs := [b0]) (k := 1) rfl (by decide) rfl).symm
  | [] => by cases p <;> rfl

end Sys2Proof

/-! ENCODE's run (R100 of 41_encode.md): what its internal steps keep, from the start to the completion, and the
response they end in. The bytes read so far are a ghost of the invariant, so it holds whatever the host does to IN
while the command runs (R195): where nothing was changed they are the bytes bound. -/

namespace Sys2Proof

open Machine Spec

/-! ### Reading IN -/

/-- `rd` is what reading the first bytes of `bs` gave: the bytes themselves, but any byte at an offset in `changed`. -/
def ReadsOf (changed : List Nat) (bs rd : List Byte) : Prop :=
  ∀ j < rd.length, j ∉ changed → rd[j]? = bs[j]?

theorem ReadsOf.concat {changed : List Nat} {bs rd : List Byte} {b : Byte} (h : ReadsOf changed bs rd)
    (hb : rd.length ∉ changed → bs[rd.length]? = some b) : ReadsOf changed bs (rd ++ [b]) := by
  intro j hj hc
  rw [List.length_append, List.length_singleton] at hj
  obtain hlt | rfl := Nat.lt_succ_iff_lt_or_eq.mp hj
  · rw [List.getElem?_append_left hlt, h j hlt hc]
  · rw [List.getElem?_concat_length, hb hc]

theorem ReadsOf.eq {bs rd : List Byte} (h : ReadsOf [] bs rd) (hlen : rd.length = bs.length) : rd = bs := by
  refine List.ext_getElem? fun j => ?_
  obtain hj | hj := lt_or_ge j rd.length
  · exact h j hj List.not_mem_nil
  · rw [List.getElem?_eq_none hj, List.getElem?_eq_none (hlen ▸ hj)]

/-- A read inside IN answers, and what it answers at an offset the host has not changed is the byte bound there. -/
theorem exists_memRead_of_lt {s : State} {bs : List Byte} {a : Nat} (hin : s.input = Memory.ofBytes bs)
    (ha : a < bs.length) :
    ∃ b d, memRead a s = some (b, { s with draws := d }) ∧ (a ∉ s.changed → bs[a]? = some b) := by
  have hsome : (memRead a s).isSome := by rw [memRead_isSome, hin, Memory.read_ofBytes]; simpa using ha
  obtain ⟨⟨b, s'⟩, hr⟩ := Option.isSome_iff_exists.mp hsome
  obtain ⟨b₀, hb₀, ⟨_, rfl, rfl⟩ | ⟨hc, _, rfl⟩⟩ := memRead_cases hr
  · exact ⟨b, s'.draws, hr, fun _ => by rw [← hb₀, hin, Memory.read_ofBytes]⟩
  · exact ⟨b, s.draws + 1, hr, fun hc' => absurd hc hc'⟩

/-! ### The two loops (R104, R105) -/

/-- In the loops, with the bytes `rd` read and the digits `ds` emitted: the 8 I bits read are the 5 K bits emitted
followed by the NB significant bits of ACC. -/
structure EncLoop (rd : List Byte) (ds : List Digit) (s : State) : Prop where
  read : s.i = rd.length
  count : s.k = ds.length
  staged : s.staging.slice s.k = ds.map alpha
  bits : s.encBits
  value : bitsValue (bitStream rd) = bitsValue (digitStream ds) * 2 ^ s.nb.toNat + accLeftover s.acc s.nb.toNat
  fill : s.nb.toNat ≤ 12
  phase : s.phase = encNextPhase s

theorem encLoop_encStart (s : State) : EncLoop [] [] (encStart s) where
  read := rfl
  count := rfl
  staged := rfl
  bits := rfl
  value := rfl
  fill := Nat.zero_le 12
  phase := rfl

/-- R104: the byte goes to the end of the bits read and of the bits kept. -/
theorem encLoop_encPutByte {rd : List Byte} {ds : List Digit} {s : State} (h : EncLoop rd ds s)
    (hnb : s.nb.toNat ≤ 4) (b : Byte) : EncLoop (rd ++ [b]) ds (encPutByte b s) where
  read := by rw [List.length_append, ← h.read]; rfl
  count := h.count
  staged := h.staged
  bits := by
    have := h.bits
    show 8 * (s.i + 1) = 5 * s.k + (s.nb + 8#4).toNat
    rw [counter_add8 hnb]
    omega
  value := by
    show _ = _ * 2 ^ (s.nb + 8#4).toNat + accLeftover (accPutByte s.acc b) (s.nb + 8#4).toNat
    rw [bitsValue_bitStream_concat, h.value, counter_add8 hnb, accPutByte_leftover _ _ hnb]
    ring
  fill := by
    show (s.nb + 8#4).toNat ≤ 12
    rw [counter_add8 hnb]
    omega
  phase := rfl

/-- R105: the digit is the first 5 of the bits kept. -/
theorem encLoop_encEmit {rd : List Byte} {ds : List Digit} {s : State} (h : EncLoop rd ds s)
    (hnb : 5 ≤ s.nb.toNat) : EncLoop rd (ds ++ [accTakeDigit s.acc s.nb.toNat]) (encEmit s) where
  read := h.read
  count := by rw [List.length_append, ← h.count]; rfl
  staged := by
    show (s.staging.write s.k _).slice (s.k + 1) = _
    rw [Memory.slice_write, h.staged, List.map_append, List.map_singleton]
  bits := by
    have := h.bits
    show 8 * s.i = 5 * (s.k + 1) + (s.nb - 5#4).toNat
    rw [counter_sub5 hnb]
    omega
  value := by
    have hpow : (2 : Nat) ^ s.nb.toNat = 2 ^ 5 * 2 ^ (s.nb.toNat - 5) := by
      rw [← pow_add, Nat.add_sub_cancel' hnb]
    show _ = _ * 2 ^ (s.nb - 5#4).toNat + accLeftover s.acc (s.nb - 5#4).toNat
    rw [bitsValue_digitStream_concat, h.value, counter_sub5 hnb, accTakeDigit_toNat _ hnb, hpow,
      ← accLeftover_mod s.acc (Nat.sub_le s.nb.toNat 5), add_mul, mul_assoc, add_assoc, Nat.div_add_mod']
  fill := by
    have := h.fill
    show (s.nb - 5#4).toNat ≤ 12
    rw [counter_sub5 hnb]
    omega
  phase := rfl

/-! ### The tail and the padding (R106, R107) -/

/-- The characters of `bs` are staged, then `j` of the '=' that P = 1 adds. -/
structure EncTailed (p : Bool) (bs : List Byte) (j : Nat) (s : State) : Prop where
  count : s.k = charCount bs.length + j
  staged : s.staging.slice s.k = encodeChars bs ++ List.replicate j padChar
  le : j ≤ padCount bs.length
  unpadded : p = false → j = 0

/-- The state of a completed ENCODE of `bs`. -/
def EncDone (p : Bool) (bs : List Byte) (s : State) : Prop :=
  s.phase = .idle ∧ s.response = ⟨statusOk, (encodeText p bs).length, encodeText p bs⟩

/-- After the tail: in E_PAD with padding to emit, or completed. -/
def EncEnding (p : Bool) (bs : List Byte) (s : State) : Prop :=
  (s.phase = .ePad ∧ p = true ∧ s.k % 8 ≠ 0 ∧ ∃ j, EncTailed p bs j s) ∨ EncDone p bs s

/-- The digits emitted are the closed form's once the bits kept have been completed with zero bits. -/
theorem encTailed_of_value {p : Bool} {bs : List Byte} {ds : List Digit} {s : State} {z : Nat} (hk : s.k = ds.length)
    (hs : s.staging.slice s.k = ds.map alpha) (hlen : 5 * ds.length = 8 * bs.length + z) (hz : z < 5)
    (hv : bitsValue (digitStream ds) = bitsValue (bitStream bs) * 2 ^ z) : EncTailed p bs 0 s := by
  have hc : ds.length = charCount bs.length := by unfold charCount; omega
  have hfill : 5 * charCount bs.length - 8 * bs.length = z := by omega
  have hds : digitStream ds = paddedStream bs := by
    refine eq_of_bitsValue_eq ?_ ?_
    · rw [length_digitStream, length_paddedStream, hc]
    · rw [bitsValue_paddedStream, hv, hfill]
  exact ⟨hk.trans hc, by rw [hs, encodeChars_eq_map_alpha hds]; simp, Nat.zero_le _, fun _ => rfl⟩

/-- R107's test, made in the state in which `j` padding characters are out. -/
theorem encEnding_encPadOrDone {p : Bool} {bs : List Byte} {j : Nat} {s : State} (h : EncTailed p bs j s) :
    EncEnding p bs (encPadOrDone p s) := by
  unfold encPadOrDone
  split
  next hp => exact .inl ⟨rfl, hp.1, hp.2, j, h.count, h.staged, h.le, h.unpadded⟩
  next hp =>
    have htext : encodeText p bs = encodeChars bs ++ List.replicate j padChar := by
      rw [encodeText_eq, padTail]
      cases p with
      | false => rw [h.unpadded rfl]; rfl
      | true =>
        have hk : s.k % 8 = 0 := by simpa using hp
        have hj : j = padCount bs.length := by
          have := h.le
          rw [h.count] at hk
          unfold padCount at *
          omega
        rw [if_pos rfl, hj]
    refine .inr ⟨rfl, ?_⟩
    rw [State.completeOk_response, h.staged, htext, List.length_append, length_encodeChars, List.length_replicate,
      h.count]

/-- R106: the last digit is the bits kept, completed with zero bits. -/
theorem encEnding_encTail {rd : List Byte} {ds : List Digit} {s : State} (h : EncLoop rd ds s) (p : Bool)
    (hnb : s.nb.toNat ≤ 4) : EncEnding p rd (encTail p s) := by
  refine encEnding_encPadOrDone (j := 0) ?_
  have hbits : 8 * rd.length = 5 * ds.length + s.nb.toNat := by rw [← h.read, ← h.count]; exact h.bits
  split
  next hpos =>
    refine encTailed_of_value (ds := ds ++ [accTailDigit s.acc s.nb.toNat]) (z := 5 - s.nb.toNat) ?_ ?_ ?_ (by omega) ?_
    · rw [List.length_append, ← h.count]; rfl
    · show (s.staging.write s.k _).slice (s.k + 1) = _
      rw [Memory.slice_write, h.staged, List.map_append, List.map_singleton]
    · rw [List.length_append, List.length_singleton]
      omega
    · have hpow : (2 : Nat) ^ 5 = 2 ^ s.nb.toNat * 2 ^ (5 - s.nb.toNat) := by
        rw [← pow_add, Nat.add_sub_cancel' (by omega)]
      rw [bitsValue_digitStream_concat, h.value, accTailDigit_toNat _ (by omega), hpow]
      ring
  next hpos =>
    have hzero : s.nb.toNat = 0 := Nat.eq_zero_of_not_pos hpos
    have hv := h.value
    rw [hzero, show accLeftover s.acc 0 = 0 from Nat.mod_one _, add_zero] at hv
    exact encTailed_of_value (z := 0) h.count h.staged (by omega) (by norm_num) (by rw [hv, pow_zero, mul_one, mul_one])

/-- R107: one '=' more, where the count is no multiple of 8 yet. -/
theorem encEnding_encPad {p : Bool} {bs : List Byte} {j : Nat} {s : State} (h : EncTailed p bs j s) (hp : p = true)
    (hk : s.k % 8 ≠ 0) : EncEnding p bs (encPad p s) := by
  refine encEnding_encPadOrDone (j := j + 1) ⟨?_, ?_, ?_, by simp [hp]⟩
  · rw [State.emit_k, h.count, add_assoc]
  · rw [State.emit_staging, State.emit_k, Memory.slice_write, h.staged, List.append_assoc, ← List.replicate_succ']
  · have := h.le
    rw [h.count] at hk
    unfold padCount at *
    omega

/-! ### The whole run -/

/-- How far ENCODE is on the input `bs`: in the loops, or with the whole input read and the encoding of what was read
ending. -/
def EncStage (p : Bool) (changed : List Nat) (bs : List Byte) (s : State) : Prop :=
  ∃ rd, ReadsOf changed bs rd ∧
    ((rd.length ≤ bs.length ∧ ∃ ds, EncLoop rd ds s) ∨ (rd.length = bs.length ∧ EncEnding p rd s))

/-- What ENCODE's internal steps keep. -/
structure EncRuns (p : Bool) (bs : List Byte) (s : State) : Prop where
  len : s.n = bs.length
  input : s.input = Memory.ofBytes bs
  stage : EncStage p s.changed bs s

/-- The internal steps still to make, at most (R198). -/
def encMeasure (s : State) : Nat :=
  match s.phase with
  | .idle => 0
  | .ePad => 8 - s.k % 8
  | _ => (s.n - s.i) + (charCount s.n - s.k) + 8

theorem encNextPhase_cases (s : State) :
    (encNextPhase s = .eEmit ∧ 5 ≤ s.nb.toNat) ∨ (encNextPhase s = .eLoad ∧ s.nb.toNat ≤ 4 ∧ s.i < s.n) ∨
      (encNextPhase s = .eTail ∧ s.nb.toNat ≤ 4 ∧ s.n ≤ s.i) := by
  unfold encNextPhase
  split
  next hnb => exact .inl ⟨rfl, hnb⟩
  next hnb =>
    split
    next hi => exact .inr (.inl ⟨rfl, by omega, hi⟩)
    next hi => exact .inr (.inr ⟨rfl, by omega, by omega⟩)

theorem EncLoop.encMeasure_eq {rd : List Byte} {ds : List Digit} {s : State} (h : EncLoop rd ds s) :
    encMeasure s = (s.n - s.i) + (charCount s.n - s.k) + 8 := by
  obtain ⟨hph, _⟩ | ⟨hph, _⟩ | ⟨hph, _⟩ := encNextPhase_cases s <;> simp [encMeasure, h.phase, hph]

theorem encMeasure_lt_of_encEnding {p : Bool} {bs : List Byte} {s : State} (h : EncEnding p bs s) :
    encMeasure s < 8 := by
  obtain ⟨hph, _, hk, _⟩ | ⟨hph, _⟩ := h
  · simp only [encMeasure, hph]
    omega
  · simp [encMeasure, hph]

@[simp] theorem encPad_k (p : Bool) (s : State) : (encPad p s).k = s.k + 1 := by
  unfold encPad encPadOrDone
  split <;> rfl

/-- A step of the loops answers, and goes on in them or makes the tail. -/
theorem EncLoop.progress {bs rd : List Byte} {ds : List Digit} {s : State} (h : EncLoop rd ds s) (p : Bool)
    (hn : s.n = bs.length) (hin : s.input = Memory.ofBytes bs) (hr : ReadsOf s.changed bs rd)
    (hle : rd.length ≤ bs.length) :
    ∃ t, microStep p s = .next t ∧ EncStage p s.changed bs t ∧ encMeasure t < encMeasure s := by
  have hi := h.read
  obtain ⟨hph, hnb⟩ | ⟨hph, hnb, hlt⟩ | ⟨hph, hnb, hge⟩ := encNextPhase_cases s
  · have hemit := encLoop_encEmit h hnb
    refine ⟨encEmit s, by simp [microStep, h.phase, hph], ⟨rd, hr, .inl ⟨hle, _, hemit⟩⟩, ?_⟩
    have hroom : s.k < charCount s.n := by
      have := h.bits
      unfold charCount
      omega
    rw [hemit.encMeasure_eq, h.encMeasure_eq]
    show (s.n - s.i) + (charCount s.n - (s.k + 1)) + 8 < _
    omega
  · obtain ⟨b, d, hread, hb⟩ := exists_memRead_of_lt (a := s.i) hin (by omega)
    have hs' : EncLoop rd ds { s with draws := d } := ⟨h.read, h.count, h.staged, h.bits, h.value, h.fill, h.phase⟩
    have hput := encLoop_encPutByte hs' hnb b
    refine ⟨encPutByte b { s with draws := d }, by simp [microStep, h.phase, hph, encLoad, hread], ?_, ?_⟩
    · exact ⟨rd ++ [b], hr.concat (hi ▸ hb), .inl ⟨by rw [List.length_append, List.length_singleton]; omega, ds, hput⟩⟩
    · rw [hput.encMeasure_eq, h.encMeasure_eq]
      show (s.n - (s.i + 1)) + (charCount s.n - s.k) + 8 < _
      omega
  · have hend := encEnding_encTail h p hnb
    refine ⟨encTail p s, by simp [microStep, h.phase, hph], ⟨rd, hr, .inr ⟨by omega, hend⟩⟩, ?_⟩
    have := encMeasure_lt_of_encEnding hend
    rw [h.encMeasure_eq]
    omega

/-- A step of the padding answers and goes on in it or completes. -/
theorem EncEnding.progress {p : Bool} {bs : List Byte} {s : State} (h : EncEnding p bs s) (hb : s.phase ≠ .idle) :
    ∃ t, microStep p s = .next t ∧ EncEnding p bs t ∧ encMeasure t < encMeasure s := by
  obtain ⟨hph, hp, hk, j, hj⟩ | ⟨hph, _⟩ := h
  · have ht := encEnding_encPad hj hp hk
    refine ⟨encPad p s, by simp [microStep, hph], ht, ?_⟩
    obtain ⟨hpht, _, hkt, _⟩ | ⟨hpht, _⟩ := ht
    · rw [encPad_k] at hkt
      simp only [encMeasure, hph, hpht, encPad_k]
      omega
    · simp only [encMeasure, hph, hpht]
      omega
  · exact absurd hph hb

/-- Every internal step answers, keeps the invariant and lowers the measure. -/
theorem EncRuns.progress {p : Bool} {bs : List Byte} {s : State} (h : EncRuns p bs s) (hb : s.phase ≠ .idle) :
    ∃ t, microStep p s = .next t ∧ EncRuns p bs t ∧ encMeasure t < encMeasure s := by
  obtain ⟨t, hm, hst, hlt⟩ :
      ∃ t, microStep p s = .next t ∧ EncStage p s.changed bs t ∧ encMeasure t < encMeasure s := by
    obtain ⟨rd, hr, ⟨hle, ds, hloop⟩ | ⟨hlen, hend⟩⟩ := h.stage
    · exact hloop.progress p h.len h.input hr hle
    · obtain ⟨t, hm, ht, hlt⟩ := hend.progress hb
      exact ⟨t, hm, ⟨rd, hr, .inr ⟨hlen, ht⟩⟩, hlt⟩
  have hsame := microStep_same hm
  exact ⟨t, hm, ⟨hsame.n.trans h.len, hsame.input.trans h.input, hsame.changed ▸ hst⟩, hlt⟩

theorem encRuns_encStart {p : Bool} {bs : List Byte} {s : State} (hn : s.n = bs.length)
    (hin : s.input = Memory.ofBytes bs) : EncRuns p bs (encStart s) where
  len := hn
  input := hin
  stage := ⟨[], by simp [ReadsOf], .inl ⟨Nat.zero_le _, [], encLoop_encStart s⟩⟩

theorem EncRuns.done {p : Bool} {bs : List Byte} {s : State} (h : EncRuns p bs s) (hi : s.phase = .idle) :
    ∃ rd, ReadsOf s.changed bs rd ∧ rd.length = bs.length ∧ EncDone p rd s := by
  obtain ⟨rd, hr, ⟨-, ds, hloop⟩ | ⟨hlen, ⟨hph, -⟩ | hdone⟩⟩ := h.stage
  · have := hloop.phase
    obtain ⟨hph, _⟩ | ⟨hph, _⟩ | ⟨hph, _⟩ := encNextPhase_cases s <;> simp [hi, hph] at this
  · simp [hi] at hph
  · exact ⟨rd, hr, hlen, hdone⟩

/-- ENCODE completes within the bound of R198, with the encoding of what its reads of IN gave. -/
theorem exec_enc_completes (p : Bool) {s : State} {bs : List Byte} (hn : s.n = bs.length)
    (hin : s.input = Memory.ofBytes bs) :
    ∃ t rd, exec (.enc p) s = .next t ∧ ReadsOf s.changed bs rd ∧ rd.length = bs.length ∧ EncDone p rd t := by
  have hbound : encMeasure (encStart s) ≤ encBound s.n := by
    rw [(encLoop_encStart s).encMeasure_eq]
    show s.n + charCount s.n + 8 ≤ s.n + charCount s.n + 1 + 7
    exact le_rfl
  obtain ⟨t, hrun, ht, hidle⟩ := runToIdle_completes encMeasure (fun _ h hb => h.progress hb)
    (encRuns_encStart (p := p) hn hin) hbound
  obtain ⟨rd, hr, hlen, hdone⟩ := ht.done hidle
  have hchanged : t.changed = s.changed := ((encStart_same s).trans (runToIdle_same hrun)).changed
  exact ⟨t, rd, hrun, hchanged ▸ hr, hlen, hdone⟩

/-! ### The empty input (R109) -/

/-- With N = 0 nothing is read and nothing is emitted: the tail finds NB = 0, and the padding K = 0. -/
theorem exec_enc_of_n_eq_zero (p : Bool) {s : State} (hn : s.n = 0) :
    exec (.enc p) s = .next (encStart s).completeOk := by
  have hph : (encStart s).phase = .eTail := by simp [encStart, encNextPhase, hn]
  have htail : encTail p (encStart s) = (encStart s).completeOk := by simp [encTail, encPadOrDone, encStart]
  show runToIdle p (encBound s.n) (encStart s) = _
  rw [hn]
  exact (runToIdle_busy (by simp [hph]) (by simp [microStep, hph, htail])).trans (runToIdle_idle rfl)

/-! ### The statements -/

/-- Settles O31: with nothing changed by the host, the bytes read are those of IN. -/
theorem encodeOutputIsTheClosedForm : Obligations.EncodeOutputIsTheClosedForm := by
  intro p s bs ⟨hn, hin, hchanged⟩
  obtain ⟨t, rd, hrun, hr, hlen, hidle, hresp⟩ := exec_enc_completes p hn hin
  obtain rfl := (hchanged ▸ hr).eq hlen
  exact ⟨t, hrun, hidle, hresp⟩

/-- Settles O32: the dispatch form is the closed form. -/
theorem encodeEqualsTheTailDispatch : Obligations.EncodeEqualsTheTailDispatch := by
  intro p s bs hs
  rw [encodeDispatch_eq_encodeText]
  exact encodeOutputIsTheClosedForm p s bs hs

/-- What ENCODE answers, field by field of the response. -/
theorem exists_exec_enc (p : Bool) {s : State} {bs : List Byte} (hs : Holds s bs) :
    ∃ t, exec (.enc p) s = .next t ∧ t.status = 1#2 ∧ t.outLen = (encodeText p bs).length ∧
      t.out = encodeChars bs ++ padTail p (padCount bs.length) := by
  obtain ⟨t, hrun, -, hresp⟩ := encodeOutputIsTheClosedForm p s bs hs
  exact ⟨t, hrun, congrArg Response.status hresp, congrArg Response.outLen hresp, congrArg Response.out hresp⟩

/-- Settles O33: the length of the characters and the padding. -/
theorem encodeOutputLength : Obligations.EncodeOutputLength := by
  intro p s bs hs
  obtain ⟨t, hrun, -, hlen, -⟩ := exists_exec_enc p hs
  rw [encodeText_eq, List.length_append, length_encodeChars, padTail] at hlen
  refine ⟨t, hrun, ?_, ?_⟩
  · rintro rfl
    exact hlen
  · rintro rfl
    rw [if_pos rfl, List.length_replicate] at hlen
    exact ⟨hlen, hlen.trans (charCount_add_padCount _)⟩

/-- Settles O34: whole groups are cut off, and what is left is the partial group's row of the table. -/
theorem encodeTailTable : Obligations.EncodeTailTable := by
  intro p s bs q k hs hbs hk
  obtain ⟨t, hrun, -, -, hout⟩ := exists_exec_enc p hs
  have hcount : charCount bs.length = 8 * q + tailChars k := by rw [hbs, charCount_add_mul, charCount_tail hk]
  have hmod : bs.length % 5 = k := by omega
  have hgroups : (bs.take (5 * q)).length = 5 * q := by rw [List.length_take]; omega
  refine ⟨t, encodeChars bs, hrun, ?_, ?_, ?_, padChar_notMem_encodeChars bs, ?_, ?_⟩
  · rw [hout, hbs, padCount_add_mul, padCount_tail hk]
  · rw [length_encodeChars, hcount]
  · rw [length_encodeChars, hcount, Nat.mul_add_mod, ← charCount_tail hk]
    exact Nat.mod_eq_of_lt (by unfold charCount; omega)
  · have hlen : (encodeChars (bs.take (5 * q))).length = 8 * q := by
      rw [length_encodeChars, hgroups]
      exact charCount_add_mul 0 q
    conv_lhs => rw [← List.take_append_drop (5 * q) bs, encodeChars_append hgroups, List.take_left' hlen]
  · intro d _ hd
    exact hmod ▸ lastDigit_mod_tailZeros hd

/-- Settles O36: no character is '=', so what is removed is the padding. -/
theorem encodePaddingIndependence : Obligations.EncodePaddingIndependence := by
  intro s bs hs
  obtain ⟨t, htrun, -, -, ht⟩ := exists_exec_enc false hs
  obtain ⟨u, hurun, -, -, hu⟩ := exists_exec_enc true hs
  refine ⟨t, u, htrun, hurun, ?_⟩
  rw [ht, hu]
  exact (List.append_nil _).trans (dropWhile_padChar_reverse (padChar_notMem_encodeChars bs) _).symm

/-- Settles O37: the characters come from ALPHA, and the rest is the padding. -/
theorem encodeOutputClosure : Obligations.EncodeOutputClosure := by
  intro p s bs hs
  obtain ⟨t, hrun, hstatus, -, hout⟩ := exists_exec_enc p hs
  refine ⟨t, encodeChars bs, if p = true then padCount bs.length else 0, hrun, hstatus, ?_, ?_, ?_, ?_⟩
  · rw [hout, padTail]
    split <;> rfl
  · rintro rfl
    rfl
  · exact fun c hc => exists_alpha_of_mem_encodeChars hc
  · exact fun d hd => lastDigit_mod_tailZeros hd

/-- Settles O35: with N = 0 the start's loop test goes to the tail, which finds NB = 0 and K = 0. -/
theorem encodeOfEmptyIsEmpty : Obligations.EncodeOfEmptyIsEmpty := fun p _ hn =>
  ⟨_, exec_enc_of_n_eq_zero p hn, rfl, rfl, rfl, rfl⟩

end Sys2Proof

/-! The text of DECODE (R132 to R135 of 42_decode.md): its trailing '=' and the payload before them, of any text and of
ENCODE's. -/

namespace Sys2Proof

open Machine Spec

/-! ### The trailing run of '=' (R132) -/

/-- A text is its payload and the trailing '=', and the payload does not end in '='. -/
theorem exists_eq_append_padRun (text : List Byte) :
    ∃ chars, text = chars ++ List.replicate (padRun text) padChar ∧ chars.getLast? ≠ some padChar := by
  refine ⟨text.rdropWhile (· = padChar), ?_, fun h => ?_⟩
  · have hrun : text.rtakeWhile (· = padChar) = List.replicate (padRun text) padChar :=
      List.eq_replicate_iff.mpr ⟨List.length_reverse, fun b hb => by simpa using List.mem_rtakeWhile_imp hb⟩
    rw [← hrun, List.rdropWhile_append_rtakeWhile]
  · obtain ⟨hne, hlast⟩ := List.mem_getLast?_eq_getLast h
    exact List.rdropWhile_last_not _ _ hne (decide_eq_true hlast.symm)

theorem padRun_le_length (text : List Byte) : padRun text ≤ text.length := by
  rw [← List.length_reverse]
  exact (List.takeWhile_prefix _).length_le

/-- With `T` trailing '=' counted, the code unit before them is one more of the run, or ends it. -/
theorem eq_padChar_iff_lt_padRun {text : List Byte} {c : Byte} {T : Nat} (hT : T ≤ padRun text)
    (hlt : T < text.length) (hc : text[text.length - 1 - T]? = some c) : c = padChar ↔ T < padRun text := by
  obtain ⟨chars, htext, hlast⟩ := exists_eq_append_padRun text
  generalize padRun text = run at *
  subst htext
  rw [List.length_append, List.length_replicate] at hlt hc
  obtain hlt' | rfl := lt_or_eq_of_le hT
  · have hrun : chars.length + run - 1 - T - chars.length < run := by omega
    rw [List.getElem?_append_right (by omega), List.getElem?_replicate_of_lt hrun, Option.some_inj] at hc
    exact iff_of_true hc.symm hlt'
  · have hidx : chars.length + T - 1 - T = chars.length - 1 := by omega
    rw [hidx, List.getElem?_append_left (by omega), ← List.getLast?_eq_getElem?] at hc
    exact iff_of_false (fun he => hlast (he ▸ hc)) (lt_irrefl T)

theorem padRun_append_replicate {chars : List Byte} (h : padChar ∉ chars) (c : Nat) :
    padRun (chars ++ List.replicate c padChar) = c := by
  have hnone : chars.reverse.takeWhile (· = padChar) = [] := by
    refine List.takeWhile_eq_nil_iff.mpr fun hl he => h ?_
    exact of_decide_eq_true he ▸ List.mem_reverse.mp (List.getElem_mem hl)
  rw [padRun, List.reverse_append, List.reverse_replicate, List.takeWhile_append_of_pos (by simp), hnone,
    List.append_nil, List.length_replicate]

/-! ### The payload (R133, R134) -/

theorem payloadLen_false (text : List Byte) : payloadLen false text = text.length := rfl

theorem payloadLen_true (text : List Byte) : payloadLen true text = text.length - padRun text := rfl

theorem payloadLen_le (p : Bool) (text : List Byte) : payloadLen p text ≤ text.length := by
  unfold payloadLen
  split <;> omega

/-- A text is its payload and, under P = 1, the trailing '='. -/
theorem take_payloadLen_append (p : Bool) (text : List Byte) :
    text = text.take (payloadLen p text) ++ padTail p (padRun text) := by
  cases p with
  | false => simp [payloadLen_false, padTail]
  | true =>
    obtain ⟨chars, htext, -⟩ := exists_eq_append_padRun text
    rw [payloadLen_true, show padTail true (padRun text) = List.replicate (padRun text) padChar from rfl]
    generalize padRun text = run at *
    subst htext
    rw [List.length_append, List.length_replicate, Nat.add_sub_cancel, List.take_left]

theorem mem_take_of_getElem? {text : List Byte} {m j : Nat} {c : Byte} (hj : j < m) (hc : text[j]? = some c) :
    c ∈ text.take m :=
  List.mem_of_getElem? ((List.getElem?_take_of_lt hj).trans hc)

/-- A code unit of a payload of digits has a digit. -/
theorem exists_alpha_of_take_eq_map {text : List Byte} {ds : List Digit} {m j : Nat} {c : Byte}
    (h : text.take m = ds.map alpha) (hj : j < m) (hc : text[j]? = some c) : ∃ d, alpha d = c := by
  obtain ⟨d, -, hd⟩ := List.mem_map.mp (h ▸ mem_take_of_getElem? hj hc)
  exact ⟨d, hd⟩

theorem rev_padChar : rev padChar = none :=
  codesOutsideTheAlphabetAreInvalid padChar (by decide)

/-! ### ENCODE's text -/

theorem padRun_encodeText (bs : List Byte) : padRun (encodeText true bs) = padCount bs.length :=
  padRun_append_replicate (padChar_notMem_encodeChars bs) _

theorem length_encodeText_false (bs : List Byte) : (encodeText false bs).length = charCount bs.length := by
  simp [encodeText]

theorem length_encodeText_true (bs : List Byte) :
    (encodeText true bs).length = charCount bs.length + padCount bs.length := by
  simp [encodeText]

theorem payloadLen_encodeText (p : Bool) (bs : List Byte) : payloadLen p (encodeText p bs) = charCount bs.length := by
  cases p with
  | false => exact length_encodeText_false bs
  | true => rw [payloadLen_true, padRun_encodeText, length_encodeText_true, Nat.add_sub_cancel]

/-- ENCODE's text passes phase 1. -/
theorem phase1Ok_encodeText (p : Bool) (bs : List Byte) : phase1Ok p (encodeText p bs) := by
  refine ⟨?_, ?_⟩
  · rintro rfl
    rw [padRun_encodeText, length_encodeText_true, charCount_add_padCount, Nat.mul_mod_right]
    exact ⟨rfl, Nat.le_of_lt_succ (Nat.mod_lt _ (by norm_num))⟩
  · rw [payloadLen_encodeText]
    unfold charCount
    omega

/-- The payload of ENCODE's text is the characters. -/
theorem take_payloadLen_encodeText (p : Bool) (bs : List Byte) :
    (encodeText p bs).take (payloadLen p (encodeText p bs)) = encodeChars bs :=
  List.take_left' ((length_encodeChars bs).trans (payloadLen_encodeText p bs).symm)

/-- A code unit in the payload of ENCODE's text has a digit. -/
theorem exists_alpha_of_getElem?_encodeText {p : Bool} {bs : List Byte} {j : Nat} {c : Byte}
    (hj : j < payloadLen p (encodeText p bs)) (hc : (encodeText p bs)[j]? = some c) : ∃ d, alpha d = c :=
  exists_alpha_of_mem_encodeChars (take_payloadLen_encodeText p bs ▸ mem_take_of_getElem? hj hc)

/-- R146: a text that passes phase 1 and whose payload is the characters of `bs` is ENCODE's text of `bs`. -/
theorem eq_encodeText_of_payload {p : Bool} {text bs : List Byte} (h : phase1Ok p text)
    (hchars : text.take (payloadLen p text) = encodeChars bs) : text = encodeText p bs := by
  have hlen : payloadLen p text = charCount bs.length := by
    rw [← length_encodeChars, ← hchars, List.length_take, min_eq_left (payloadLen_le p text)]
  have hpad : padTail p (padRun text) = padTail p (padCount bs.length) := by
    cases p with
    | false => rfl
    | true =>
      obtain ⟨hmul, hrun⟩ := h.1 rfl
      have hle := padRun_le_length text
      rw [payloadLen_true] at hlen
      rw [padCount, ← hlen, show padRun text = (8 - (text.length - padRun text) % 8) % 8 by omega]
      congr 1
      omega
  rw [encodeText_eq, ← hchars, ← hpad]
  exact take_payloadLen_append p text

/-- R102: no '=' is added exactly to whole groups of 5 bytes. -/
theorem padCount_eq_zero_iff {n : Nat} : padCount n = 0 ↔ n % 5 = 0 := by
  unfold padCount charCount
  omega

/-- R146: the padded encodings with no '=' are those of whole groups. -/
theorem mod_five_eq_zero_iff_padChar_notMem (bs : List Byte) :
    bs.length % 5 = 0 ↔ padChar ∉ encodeText true bs := by
  have hchars := padChar_notMem_encodeChars bs
  rw [← padCount_eq_zero_iff]
  simp [encodeText, hchars]

/-- R146: both policies have one encoding for whole groups. -/
theorem encodeText_true_eq_false {bs : List Byte} (h : bs.length % 5 = 0) :
    encodeText true bs = encodeText false bs := by
  simp [encodeText, padCount_eq_zero_iff.mpr h]

end Sys2Proof

/-! DECODE's run (R130 of 42_decode.md): what its internal steps keep, from the start to the completion, and the ways it
ends. The facts of the character loop speak of the digits read, those of the whole run of the text. -/

namespace Sys2Proof

open Machine Spec

/-! ### The bits kept (R139 to R141) -/

/-- Byte sequences are equal if their streams are. -/
theorem bitStream_inj {as bs : List Byte} : bitStream as = bitStream bs ↔ as = bs := by
  refine ⟨fun h => ?_, congrArg bitStream⟩
  induction as generalizing bs with
  | nil =>
    have hlen := congrArg List.length h
    rw [length_bitStream, length_bitStream] at hlen
    exact (List.length_eq_zero_iff.mp (by simpa using hlen.symm)).symm
  | cons a as ih =>
    cases bs with
    | nil => simpa using congrArg List.length h
    | cons b bs =>
      obtain ⟨hbits, hrest⟩ := List.append_inj (s₁ := bitsOf a) (s₂ := bitsOf b) h rfl
      have hab : a = b := BitVec.eq_of_toNat_eq (by rw [← bitsValue_bitsOf, hbits, bitsValue_bitsOf])
      rw [hab, ih hrest]

/-- The bits of the digits `ds` are those of the bytes `bs` followed by the NB significant bits of ACC. -/
structure Unpacked (ds : List Digit) (bs : List Byte) (s : State) : Prop where
  bits : 5 * ds.length = 8 * bs.length + s.nb.toNat
  value : bitsValue (digitStream ds) = bitsValue (bitStream bs) * 2 ^ s.nb.toNat + accLeftover s.acc s.nb.toNat
  fill : s.nb.toNat ≤ 7

/-- R141: with at most 4 bits left over, they are zero exactly if the digits are those of the bytes' padded stream. -/
theorem Unpacked.leftover_eq_zero_iff {ds : List Digit} {bs : List Byte} {s : State} (h : Unpacked ds bs s)
    (hnb : s.nb.toNat ≤ 4) : accLeftover s.acc s.nb.toNat = 0 ↔ digitStream ds = paddedStream bs := by
  have hbits := h.bits
  have hcount : ds.length = charCount bs.length := by unfold charCount; omega
  have hfill : 5 * charCount bs.length - 8 * bs.length = s.nb.toNat := by omega
  have hpad : bitsValue (paddedStream bs) = bitsValue (bitStream bs) * 2 ^ s.nb.toNat := by
    rw [bitsValue_paddedStream, hfill]
  have hv := h.value
  refine ⟨fun hz => eq_of_bitsValue_eq ?_ ?_, fun he => ?_⟩
  · rw [length_digitStream, length_paddedStream, hcount]
  · rw [hpad, hv, hz, add_zero]
  · rw [he, hpad] at hv
    omega

/-- R145: unpacking the digits of a padded stream gives its bytes, and the bits left over are zero. -/
theorem Unpacked.of_paddedStream {ds : List Digit} {as bs : List Byte} {s : State} (h : Unpacked ds bs s)
    (hs : digitStream ds = paddedStream as) : bs = as ∧ accLeftover s.acc s.nb.toNat = 0 := by
  have hbits := h.bits
  have hfill := h.fill
  have hcount := length_of_digitStream_eq hs
  have hlen : bs.length = as.length := by unfold charCount at hcount; omega
  have hnb : 5 * charCount as.length - 8 * as.length = s.nb.toNat := by omega
  have hlt := accLeftover_lt s.acc s.nb.toNat
  have hv : bitsValue (bitStream as) * 2 ^ s.nb.toNat =
      bitsValue (bitStream bs) * 2 ^ s.nb.toNat + accLeftover s.acc s.nb.toNat := by
    rw [← h.value, hs, bitsValue_paddedStream, hnb]
  have hzero : accLeftover s.acc s.nb.toNat = 0 := by
    have := congrArg (· % 2 ^ s.nb.toNat) hv
    simpa [Nat.mul_add_mod', Nat.mod_eq_of_lt hlt] using this.symm
  refine ⟨bitStream_inj.mp (eq_of_bitsValue_eq (by rw [length_bitStream, length_bitStream, hlen]) ?_), hzero⟩
  rw [hzero, add_zero] at hv
  exact (Nat.eq_of_mul_eq_mul_right (by positivity) hv).symm

/-- R141: the bits left over are the low bits of the last digit. -/
theorem Unpacked.leftover_eq_mod {ds : List Digit} {d : Digit} {bs : List Byte} {s : State}
    (h : Unpacked (ds ++ [d]) bs s) (hnb : s.nb.toNat ≤ 5) :
    accLeftover s.acc s.nb.toNat = d.toNat % 2 ^ s.nb.toNat := by
  have hv := h.value
  have hdvd : 2 ^ s.nb.toNat ∣ bitsValue (digitStream ds) * 2 ^ 5 := Dvd.dvd.mul_left (pow_dvd_pow 2 hnb) _
  rw [bitsValue_digitStream_concat] at hv
  calc accLeftover s.acc s.nb.toNat
      = (bitsValue (bitStream bs) * 2 ^ s.nb.toNat + accLeftover s.acc s.nb.toNat) % 2 ^ s.nb.toNat := by
        rw [Nat.mul_add_mod', Nat.mod_eq_of_lt (accLeftover_lt _ _)]
    _ = d.toNat % 2 ^ s.nb.toNat := by
        rw [← hv, Nat.add_mod, Nat.mod_eq_zero_of_dvd hdvd, zero_add, Nat.mod_mod]

theorem Unpacked.nb_eq {ds : List Digit} {bs : List Byte} {s : State} (h : Unpacked ds bs s) :
    s.nb.toNat = 5 * ds.length % 8 := by
  have := h.bits
  have := h.fill
  omega

theorem Unpacked.length_eq {ds : List Digit} {bs : List Byte} {s : State} (h : Unpacked ds bs s) :
    bs.length = 5 * ds.length / 8 := by
  have := h.bits
  have := h.fill
  omega

/-- R141: a payload that passes phase 1 leaves at most 4 bits over. -/
theorem Unpacked.nb_le_four {ds : List Digit} {bs : List Byte} {s : State} (h : Unpacked ds bs s)
    (hrem : ds.length % 8 ≠ 1 ∧ ds.length % 8 ≠ 3 ∧ ds.length % 8 ≠ 6) : s.nb.toNat ≤ 4 := by
  have : ds.length % 8 = 0 ∨ ds.length % 8 = 2 ∨ ds.length % 8 = 4 ∨ ds.length % 8 = 5 ∨ ds.length % 8 = 7 := by
    omega
  rw [h.nb_eq]
  omega

/-! ### The character loop (R137 to R140) -/

/-- In the loop, with the digits `ds` read and the bytes `bs` emitted. -/
structure DecLoop (ds : List Digit) (bs : List Byte) (s : State) : Prop extends Unpacked ds bs s where
  read : s.i = ds.length
  count : s.k = bs.length
  staged : s.staging.slice s.k = bs

/-- R137: a code unit with no digit fails the command. -/
theorem decPutChar_of_rev_eq_none {c : Byte} (h : rev c = none) (s : State) :
    decPutChar c s = { s with i := s.i + 1 }.fail statusInvalidEncoding := by
  simp [decPutChar, h]

/-- R140 with fewer than 8 bits. -/
theorem decPutChar_of_lt {c : Byte} {v : Digit} (h : rev c = some v) {s : State} (hnb : s.nb.toNat + 5 < 8) :
    decPutChar c s = { s with
      i := s.i + 1, acc := accPutDigit s.acc v, nb := s.nb + 5#4,
      phase := decNextPhase { s with i := s.i + 1 } } := by
  simp [decPutChar, h, decEmitByte, counter_add5 (by omega : s.nb.toNat ≤ 7), Nat.not_le.mpr hnb, decNextPhase]

/-- R140 with 8 bits or more: a byte is emitted. -/
theorem decPutChar_of_ge {c : Byte} {v : Digit} (h : rev c = some v) {s : State} (hnb : s.nb.toNat ≤ 7)
    (hge : 8 ≤ s.nb.toNat + 5) :
    decPutChar c s = { s.emit (accTakeByte (accPutDigit s.acc v) (s.nb.toNat + 5)) with
      i := s.i + 1, acc := accPutDigit s.acc v, nb := s.nb + 5#4 - 8#4,
      phase := decNextPhase { s with i := s.i + 1 } } := by
  simp [decPutChar, h, decEmitByte, counter_add5 hnb, hge, decNextPhase, State.emit]

theorem decPutChar_of_rev_eq_some {c : Byte} {v : Digit} (h : rev c = some v) {s : State} (hnb : s.nb.toNat ≤ 7) :
    (decPutChar c s).phase = decNextPhase (decPutChar c s) ∧ (decPutChar c s).i = s.i + 1 ∧
      (decPutChar c s).l = s.l ∧ (decPutChar c s).t = s.t := by
  obtain hlt | hge := lt_or_ge (s.nb.toNat + 5) 8
  · rw [decPutChar_of_lt h hlt]
    exact ⟨rfl, rfl, rfl, rfl⟩
  · rw [decPutChar_of_ge h hnb hge]
    exact ⟨rfl, rfl, rfl, rfl⟩

/-- R139: the digit goes to the end of the bits read and of the bits kept. -/
theorem Unpacked.value_concat {ds : List Digit} {bs : List Byte} {s : State} (h : Unpacked ds bs s) (v : Digit) :
    bitsValue (digitStream (ds ++ [v])) = bitsValue (bitStream bs) * 2 ^ (s.nb.toNat + 5) +
      accLeftover (accPutDigit s.acc v) (s.nb.toNat + 5) := by
  rw [bitsValue_digitStream_concat, h.value, accPutDigit_leftover _ _ h.fill]
  ring

theorem decLoop_decPutChar_of_lt {ds : List Digit} {bs : List Byte} {s : State} (h : DecLoop ds bs s) {c : Byte}
    {v : Digit} (hc : rev c = some v) (hlt : s.nb.toNat + 5 < 8) : DecLoop (ds ++ [v]) bs (decPutChar c s) := by
  have hbits := h.bits
  have hnb : (s.nb + 5#4).toNat = s.nb.toNat + 5 := counter_add5 h.fill
  have hds : (ds ++ [v]).length = ds.length + 1 := List.length_append
  rw [decPutChar_of_lt hc hlt]
  refine ⟨⟨?_, ?_, ?_⟩, ?_, h.count, h.staged⟩
  · show _ = _ + (s.nb + 5#4).toNat
    omega
  · show _ = _ * 2 ^ (s.nb + 5#4).toNat + accLeftover (accPutDigit s.acc v) (s.nb + 5#4).toNat
    rw [hnb, h.value_concat]
  · show (s.nb + 5#4).toNat ≤ 7
    omega
  · rw [hds, ← h.read]

/-- R140: the first 8 of the bits kept go to the end of the bits emitted. -/
theorem decLoop_decPutChar_of_ge {ds : List Digit} {bs : List Byte} {s : State} (h : DecLoop ds bs s) {c : Byte}
    {v : Digit} (hc : rev c = some v) (hge : 8 ≤ s.nb.toNat + 5) :
    DecLoop (ds ++ [v]) (bs ++ [accTakeByte (accPutDigit s.acc v) (s.nb.toNat + 5)]) (decPutChar c s) := by
  have hbits := h.bits
  have hfill := h.fill
  have hnb : (s.nb + 5#4 - 8#4).toNat = s.nb.toNat + 5 - 8 := by
    rw [counter_sub8 (by rw [counter_add5 hfill]; exact hge), counter_add5 hfill]
  have hds : (ds ++ [v]).length = ds.length + 1 := List.length_append
  rw [decPutChar_of_ge hc hfill hge]
  refine ⟨⟨?_, ?_, ?_⟩, ?_, ?_, ?_⟩
  · show _ = _ + (s.nb + 5#4 - 8#4).toNat
    rw [hnb, hds, List.length_append, List.length_singleton]
    omega
  · have hpow : (2 : Nat) ^ (s.nb.toNat + 5) = 2 ^ 8 * 2 ^ (s.nb.toNat + 5 - 8) := by
      rw [← pow_add, Nat.add_sub_cancel' hge]
    show _ = _ * 2 ^ (s.nb + 5#4 - 8#4).toNat + accLeftover (accPutDigit s.acc v) (s.nb + 5#4 - 8#4).toNat
    rw [h.value_concat, hnb, bitsValue_bitStream_concat, accTakeByte_toNat _ hge, hpow,
      ← accLeftover_mod _ (Nat.sub_le (s.nb.toNat + 5) 8), add_mul, mul_assoc, add_assoc, Nat.div_add_mod']
  · show (s.nb + 5#4 - 8#4).toNat ≤ 7
    omega
  · rw [hds, ← h.read]
  · rw [List.length_append, ← h.count]
    rfl
  · show (s.staging.write s.k _).slice (s.k + 1) = _
    rw [Memory.slice_write, h.staged]

theorem exists_decLoop_decPutChar {ds : List Digit} {bs : List Byte} {s : State} (h : DecLoop ds bs s) {c : Byte}
    {v : Digit} (hc : rev c = some v) : ∃ bs', DecLoop (ds ++ [v]) bs' (decPutChar c s) := by
  obtain hlt | hge := lt_or_ge (s.nb.toNat + 5) 8
  · exact ⟨bs, decLoop_decPutChar_of_lt h hc hlt⟩
  · exact ⟨_, decLoop_decPutChar_of_ge h hc hge⟩

/-! ### The ways DECODE ends -/

/-- What phase 1 leaves in T and L, where it gets to them (R132 to R134). -/
structure Phase1Regs (p : Bool) (text : List Byte) (s : State) : Prop where
  padding : p = true → text.length % 8 = 0 → s.t.toNat = min 8 (padRun text)
  payload : (p = true → text.length % 8 = 0 ∧ padRun text ≤ 7) → s.l = payloadLen p text

/-- How a DECODE of `text` has ended: by a failure of phase 1 (LENGTH, PAD_RUN and REMAINDER of R171), at the first
payload code unit with no digit (CHAR), or with the digits of the whole payload unpacked (TAIL_BITS, or OK). -/
inductive DecEnd (p : Bool) (text : List Byte) (s : State) : Prop
  | phase1 (failed : ¬ phase1Ok p text) (read : s.i = 0) (response : s.response = ⟨statusInvalidEncoding, 0, []⟩)
  | char (ds : List Digit) (c : Byte) (passed : phase1Ok p text) (lt : ds.length < payloadLen p text)
      (digits : text.take ds.length = ds.map alpha) (stop : text[ds.length]? = some c) (invalid : rev c = none)
      (read : s.i = ds.length + 1) (response : s.response = ⟨statusInvalidEncoding, 0, []⟩)
  | final (ds : List Digit) (bs : List Byte) (passed : phase1Ok p text)
      (digits : text.take (payloadLen p text) = ds.map alpha) (unpacked : Unpacked ds bs s)
      (response : s.response = if accLeftover s.acc s.nb.toNat = 0 then ⟨statusOk, bs.length, bs⟩
        else ⟨statusInvalidEncoding, 0, []⟩)

/-- How far DECODE is on `text`: counting its trailing '=', in the character loop or after it, or ended. -/
inductive DecStage (p : Bool) (text : List Byte) (s : State) : Prop
  | counting (phase : s.phase = .dStruct) (start : DecLoop [] [] s)
      (run : p = true → text.length % 8 = 0 ∧ s.t.toNat ≤ min 8 (padRun text))
  | reading (ds : List Digit) (bs : List Byte) (phase : s.phase = decNextPhase s) (passed : phase1Ok p text)
      (regs : Phase1Regs p text s) (loop : DecLoop ds bs s) (digits : text.take ds.length = ds.map alpha)
      (le : ds.length ≤ payloadLen p text)
  | ended (phase : s.phase = .idle) (regs : Phase1Regs p text s) (fin : DecEnd p text s)

theorem decLoop_clearWork (s : State) : DecLoop [] [] s.clearWork where
  bits := rfl
  value := rfl
  fill := Nat.zero_le 7
  read := rfl
  count := rfl
  staged := rfl

/-- R131: under P = 1 a length that is no multiple of 8 fails at the start. -/
theorem decStart_of_length {s : State} (h : s.n % 8 ≠ 0) :
    decStart true s = s.clearWork.fail statusInvalidEncoding := by
  simp [decStart, h]

/-- Else phase 1 begins, under P = 1 with T = 0. -/
theorem decStart_of_not_length {p : Bool} {s : State} (h : p = true → s.n % 8 = 0) :
    decStart p s = { s.clearWork with t := if p = true then 0#4 else s.t, phase := .dStruct } := by
  cases p with
  | false => simp [decStart]
  | true => simp [decStart, h rfl]

theorem forbiddenRemainder_eq_false_iff {len : Nat} :
    forbiddenRemainder len = false ↔ len % 8 ≠ 1 ∧ len % 8 ≠ 3 ∧ len % 8 ≠ 6 := by
  simp [forbiddenRemainder, and_assoc]

theorem decSetPayload_of_forbidden {len : Nat} (h : forbiddenRemainder len = true) (s : State) :
    decSetPayload len s = { s with l := len }.fail statusInvalidEncoding := by
  simp [decSetPayload, h]

theorem decSetPayload_of_not_forbidden {len : Nat} (h : forbiddenRemainder len = false) (s : State) :
    decSetPayload len s = { s with l := len, phase := decNextPhase { s with l := len } } := by
  simp [decSetPayload, h]

/-- R131: the length check ends the command or the count begins. -/
theorem decStage_decStart {p : Bool} {text : List Byte} {s : State} (hn : s.n = text.length) :
    DecStage p text (decStart p s) := by
  by_cases hlen : p = true → s.n % 8 = 0
  · rw [decStart_of_not_length hlen]
    have hclear := decLoop_clearWork s
    refine .counting rfl { hclear with } ?_
    rintro rfl
    exact ⟨hn ▸ hlen rfl, Nat.zero_le _⟩
  · obtain ⟨rfl, hne⟩ := Classical.not_imp.mp hlen
    rw [decStart_of_length hne]
    rw [hn] at hne
    exact .ended rfl ⟨fun _ h => absurd h hne, fun h => absurd (h rfl).1 hne⟩
      (.phase1 (fun h => hne (h.1 rfl).1) rfl rfl)

/-- R133 to R135: the remainder check ends the command or the character loop begins. -/
theorem decStage_decSetPayload {p : Bool} {text : List Byte} {s : State} (hstart : DecLoop [] [] s)
    (hrun : p = true → text.length % 8 = 0 ∧ padRun text ≤ 7 ∧ s.t.toNat = padRun text) :
    DecStage p text (decSetPayload (payloadLen p text) s) := by
  have hregs : Phase1Regs p text { s with l := payloadLen p text } := by
    refine ⟨fun hp _ => ?_, fun _ => rfl⟩
    obtain ⟨-, hle, ht⟩ := hrun hp
    exact ht.trans (min_eq_right (by omega)).symm
  cases hrem : forbiddenRemainder (payloadLen p text) with
  | true =>
    rw [decSetPayload_of_forbidden hrem]
    refine .ended rfl { hregs with } (.phase1 (fun h => ?_) hstart.read rfl)
    simp [forbiddenRemainder_eq_false_iff.mpr h.2] at hrem
  | false =>
    rw [decSetPayload_of_not_forbidden hrem]
    refine .reading [] [] rfl ⟨fun hp => ?_, forbiddenRemainder_eq_false_iff.mp hrem⟩ { hregs with }
      { hstart with } rfl (Nat.zero_le _)
    obtain ⟨hmul, hle, -⟩ := hrun hp
    exact ⟨hmul, hle⟩

/-- R132: where the count has ended, a run of more than 7 ends the command. -/
theorem decStage_decEndPadRun {text : List Byte} {s : State} (hn : s.n = text.length) (hstart : DecLoop [] [] s)
    (hmul : text.length % 8 = 0) (ht : s.t.toNat = min 8 (padRun text)) : DecStage true text (decEndPadRun s) := by
  unfold decEndPadRun
  split
  next hgt =>
    refine .ended rfl ⟨fun _ _ => ht, fun h => ?_⟩ (.phase1 (fun h => ?_) hstart.read rfl)
    · have := (h rfl).2
      omega
    · have := (h.1 rfl).2
      omega
  next hle =>
    have ht' : s.t.toNat = padRun text := by omega
    rw [hn, ht', ← payloadLen_true]
    exact decStage_decSetPayload hstart fun _ => ⟨hmul, by omega, ht'⟩

/-- R132: the code unit before the '=' counted is one more, or ends the count. -/
theorem decStage_decCountPad {text : List Byte} {c : Byte} {s : State} (hn : s.n = text.length)
    (hph : s.phase = .dStruct) (hstart : DecLoop [] [] s) (hmul : text.length % 8 = 0) (ht : s.t.toNat ≤ padRun text)
    (ht8 : s.t.toNat < 8) (hlt : s.t.toNat < text.length) (hc : text[text.length - 1 - s.t.toNat]? = some c) :
    DecStage true text (decCountPad c s) := by
  have hiff := eq_padChar_iff_lt_padRun ht hlt hc
  unfold decCountPad
  split
  next hpad =>
    have := hiff.mp hpad
    refine .counting hph { hstart with } fun _ => ⟨hmul, ?_⟩
    show (s.t + 1#4).toNat ≤ _
    rw [counter_add1 ht8]
    omega
  next hpad =>
    have := mt hiff.mpr hpad
    exact decStage_decEndPadRun hn hstart hmul (by omega)

/-- R137 to R140: a code unit of the payload goes on in the loop or ends the command. -/
theorem decStage_decPutChar {p : Bool} {text : List Byte} {ds : List Digit} {bs : List Byte} {c : Byte} {s : State}
    (hpassed : phase1Ok p text) (hregs : Phase1Regs p text s) (hloop : DecLoop ds bs s)
    (hdigits : text.take ds.length = ds.map alpha) (hlt : ds.length < payloadLen p text)
    (hc : text[ds.length]? = some c) : DecStage p text (decPutChar c s) := by
  cases hv : rev c with
  | none =>
    rw [decPutChar_of_rev_eq_none hv]
    exact .ended rfl { hregs with }
      (.char ds c hpassed hlt hdigits hc hv (congrArg (· + 1) hloop.read) rfl)
  | some v =>
    obtain ⟨bs', hput⟩ := exists_decLoop_decPutChar hloop hv
    obtain ⟨hph, -, hl, ht⟩ := decPutChar_of_rev_eq_some hv hloop.fill
    refine .reading (ds ++ [v]) bs' hph hpassed ⟨ht ▸ hregs.padding, hl ▸ hregs.payload⟩ hput ?_ ?_
    · rw [List.length_append, List.length_singleton, List.take_add_one, hdigits, hc, List.map_append,
        rev_eq_some_iff.mp hv |>.symm]
      rfl
    · rwa [List.length_append, List.length_singleton]

@[simp] theorem decFinal_phase (s : State) : (decFinal s).phase = .idle := by
  unfold decFinal
  split <;> rfl

/-- R141: the tail check ends the command. -/
theorem decStage_decFinal {p : Bool} {text : List Byte} {ds : List Digit} {bs : List Byte} {s : State}
    (hpassed : phase1Ok p text) (hregs : Phase1Regs p text s) (hloop : DecLoop ds bs s)
    (hdigits : text.take ds.length = ds.map alpha) (hlen : ds.length = payloadLen p text) :
    DecStage p text (decFinal s) := by
  have hzero : s.nb.toNat = 0 → accLeftover s.acc s.nb.toNat = 0 := fun h => by
    rw [h]
    exact Nat.mod_one _
  have hunpacked := hloop.toUnpacked
  rw [hlen] at hdigits
  unfold decFinal
  split
  next h =>
    exact .ended rfl { hregs with } (.final ds bs hpassed hdigits { hunpacked with } (if_neg h.2).symm)
  next h =>
    have hleft : accLeftover s.acc s.nb.toNat = 0 := by
      by_contra hne
      exact h ⟨Nat.pos_of_ne_zero (mt hzero hne), hne⟩
    refine .ended rfl { hregs with } (.final ds bs hpassed hdigits { hunpacked with } ?_)
    rw [State.completeOk_response, hloop.staged, hloop.count]
    exact (if_pos hleft).symm

/-! ### The whole run -/

/-- The internal steps still to make, at most (R198). -/
def decMeasure (p : Bool) (s : State) : Nat :=
  match s.phase with
  | .dStruct => (if p = true then 8 - s.t.toNat else 1) + s.n + 1
  | .dChar | .dFinal => s.l - s.i + 1
  | _ => 0

theorem decMeasure_of_idle {p : Bool} {s : State} (h : s.phase = .idle) : decMeasure p s = 0 := by
  simp [decMeasure, h]

theorem decMeasure_of_dStruct {p : Bool} {s : State} (h : s.phase = .dStruct) :
    decMeasure p s = (if p = true then 8 - s.t.toNat else 1) + s.n + 1 := by
  simp [decMeasure, h]

theorem decNextPhase_cases (s : State) :
    (decNextPhase s = .dChar ∧ s.i < s.l) ∨ (decNextPhase s = .dFinal ∧ s.l ≤ s.i) := by
  unfold decNextPhase
  split
  next h => exact .inl ⟨rfl, h⟩
  next h => exact .inr ⟨rfl, Nat.not_lt.mp h⟩

theorem decMeasure_of_loop {p : Bool} {s : State} (h : s.phase = decNextPhase s) :
    decMeasure p s = s.l - s.i + 1 := by
  obtain ⟨hph, _⟩ | ⟨hph, _⟩ := decNextPhase_cases s <;> simp [decMeasure, h, hph]

theorem decMeasure_decSetPayload_le (p : Bool) (len : Nat) (s : State) :
    decMeasure p (decSetPayload len s) ≤ len + 1 := by
  cases h : forbiddenRemainder len with
  | true =>
    rw [decSetPayload_of_forbidden h, decMeasure_of_idle rfl]
    exact Nat.zero_le _
  | false =>
    rw [decSetPayload_of_not_forbidden h, decMeasure_of_loop rfl]
    exact Nat.succ_le_succ (Nat.sub_le _ _)

theorem decMeasure_decEndPadRun_le (p : Bool) (s : State) :
    decMeasure p (decEndPadRun s) ≤ 8 - s.t.toNat + (s.n - s.t.toNat) := by
  unfold decEndPadRun
  split
  next => exact (decMeasure_of_idle rfl).trans_le (Nat.zero_le _)
  next => exact (decMeasure_decSetPayload_le _ _ _).trans (by omega)

theorem decMeasure_decPutChar_le {p : Bool} {c : Byte} {s : State} (hnb : s.nb.toNat ≤ 7) :
    decMeasure p (decPutChar c s) ≤ s.l - (s.i + 1) + 1 := by
  cases hv : rev c with
  | none =>
    rw [decPutChar_of_rev_eq_none hv, decMeasure_of_idle rfl]
    exact Nat.zero_le _
  | some v =>
    obtain ⟨hph, hi, hl, -⟩ := decPutChar_of_rev_eq_some hv hnb
    rw [decMeasure_of_loop hph, hi, hl]

/-- A read of IN at an offset inside the text, where the host has changed nothing. -/
theorem exists_memRead_of_holds {s : State} {text : List Byte} {a : Nat} (h : Holds s text) (ha : a < text.length) :
    ∃ c, memRead a s = some (c, s) ∧ text[a]? = some c := by
  obtain ⟨-, hin, hchanged⟩ := h
  refine ⟨text[a], ?_, List.getElem?_eq_getElem ha⟩
  rw [memRead_unchanged hchanged, hin, Memory.read_ofBytes, List.getElem?_eq_getElem ha]
  rfl

/-- A step of D_STRUCT answers, and goes on counting or ends phase 1. -/
theorem exists_decStruct {p : Bool} {text : List Byte} {s : State} (hs : Holds s text) (hph : s.phase = .dStruct)
    (hstart : DecLoop [] [] s) (hrun : p = true → text.length % 8 = 0 ∧ s.t.toNat ≤ min 8 (padRun text)) :
    ∃ t, decStruct p s = .next t ∧ DecStage p text t ∧ decMeasure p t < decMeasure p s := by
  have hn : s.n = text.length := hs.1
  rw [decMeasure_of_dStruct hph]
  cases p with
  | false =>
    refine ⟨decSetPayload s.n s, rfl, hn ▸ decStage_decSetPayload hstart nofun, ?_⟩
    exact (decMeasure_decSetPayload_le false s.n s).trans_lt (by simp)
  | true =>
    obtain ⟨hmul, ht⟩ := hrun rfl
    by_cases hlt : s.t.toNat < 8 ∧ s.t.toNat < s.n
    · obtain ⟨ht8, htn⟩ := hlt
      obtain ⟨c, hread, hc⟩ := exists_memRead_of_holds (a := s.n - 1 - s.t.toNat) hs (by omega)
      refine ⟨decCountPad c s, by simp [decStruct, ht8, htn, hread], ?_, ?_⟩
      · exact decStage_decCountPad hn hph hstart hmul (by omega) ht8 (by omega) (hn ▸ hc)
      · unfold decCountPad
        split
        · rw [decMeasure_of_dStruct (s := { s with t := s.t + 1#4 }) hph]
          show (8 - (s.t + 1#4).toNat) + s.n + 1 < (8 - s.t.toNat) + s.n + 1
          rw [counter_add1 ht8]
          omega
        · exact (decMeasure_decEndPadRun_le true s).trans_lt (by rw [if_pos rfl]; omega)
    · have hpad := padRun_le_length text
      refine ⟨decEndPadRun s, by simp [decStruct, hlt], ?_, ?_⟩
      · exact decStage_decEndPadRun hn hstart hmul (by omega)
      · exact (decMeasure_decEndPadRun_le true s).trans_lt (by rw [if_pos rfl]; omega)

/-- Every internal step answers and goes on, with a lower measure. -/
theorem DecStage.progress {p : Bool} {text : List Byte} {s : State} (h : DecStage p text s) (hs : Holds s text)
    (hb : s.phase ≠ .idle) :
    ∃ t, microStep p s = .next t ∧ DecStage p text t ∧ decMeasure p t < decMeasure p s := by
  cases h with
  | counting hph hstart hrun =>
    obtain ⟨t, hstep, ht⟩ := exists_decStruct hs hph hstart hrun
    exact ⟨t, by simp [microStep, hph, hstep], ht⟩
  | reading ds bs hph hpassed hregs hloop hdigits hle =>
    have hl := hregs.payload hpassed.1
    have hi := hloop.read
    rw [decMeasure_of_loop hph]
    obtain ⟨hnext, hlt⟩ | ⟨hnext, hge⟩ := decNextPhase_cases s
    · obtain ⟨c, hread, hc⟩ := exists_memRead_of_holds (a := s.i) hs
        (hlt.trans_le (hl ▸ payloadLen_le p text))
      refine ⟨decPutChar c s, by simp [microStep, hph, hnext, decChar, hread], ?_, ?_⟩
      · exact decStage_decPutChar hpassed hregs hloop hdigits (by omega) (hi ▸ hc)
      · exact (decMeasure_decPutChar_le hloop.fill).trans_lt (by omega)
    · have hfinal := decStage_decFinal hpassed hregs hloop hdigits (by omega)
      refine ⟨decFinal s, by simp [microStep, hph, hnext], hfinal, ?_⟩
      rw [decMeasure_of_idle (decFinal_phase s)]
      exact Nat.succ_pos _
  | ended hph => exact absurd hph hb

theorem holds_of_sameCommand {s t : State} {text : List Byte} (h : Holds s text) (hst : SameCommand s t) :
    Holds t text := by
  obtain ⟨hn, hin, hchanged⟩ := h
  exact ⟨hst.n.trans hn, hst.input.trans hin, hst.changed.trans hchanged⟩

theorem decMeasure_decStart_le (p : Bool) (s : State) : decMeasure p (decStart p s) ≤ decBound s.n := by
  by_cases hlen : p = true → s.n % 8 = 0
  · rw [decStart_of_not_length hlen, decMeasure_of_dStruct rfl]
    cases p <;> simp [decBound]
  · obtain ⟨rfl, hne⟩ := Classical.not_imp.mp hlen
    rw [decStart_of_length hne, decMeasure_of_idle rfl]
    exact Nat.zero_le _

/-- DECODE completes within the bound of R198, in one of the ways above. -/
theorem exists_exec_dec (p : Bool) {s : State} {text : List Byte} (hs : Holds s text) :
    ∃ t, exec (.dec p) s = .next t ∧ t.phase = .idle ∧ Phase1Regs p text t ∧ DecEnd p text t := by
  obtain ⟨t, hrun, ⟨-, hend⟩, hidle⟩ := runToIdle_completes (P := fun u => Holds u text ∧ DecStage p text u)
    (decMeasure p)
    (fun u ⟨hu, hstage⟩ hb => by
      obtain ⟨t, hm, ht, hlt⟩ := hstage.progress hu hb
      exact ⟨t, hm, ⟨holds_of_sameCommand hu (microStep_same hm), ht⟩, hlt⟩)
    ⟨holds_of_sameCommand hs (decStart_same p s), decStage_decStart hs.1⟩ (decMeasure_decStart_le p s)
  refine ⟨t, hrun, hidle, ?_⟩
  cases hend with
  | counting hph => simp [hidle] at hph
  | reading ds bs hph =>
    obtain ⟨hnext, _⟩ | ⟨hnext, _⟩ := decNextPhase_cases t <;> simp [hidle, hnext] at hph
  | ended _ hregs hfin => exact ⟨hregs, hfin⟩

end Sys2Proof

/-! What DECODE answers (R146 of 42_decode.md): the bytes whose encoding the text is, or INVALID_ENCODING. -/

namespace Sys2Proof

open Machine Spec

/-! ### The digits of an encoding -/

theorem map_alpha_inj {ds es : List Digit} : ds.map alpha = es.map alpha ↔ ds = es :=
  (List.map_injective_iff.mpr fun _ _ => alpha_inj.mp).eq_iff

theorem map_alpha_eq_encodeChars_iff {ds : List Digit} {bs : List Byte} :
    ds.map alpha = encodeChars bs ↔ digitStream ds = paddedStream bs := by
  obtain ⟨es, hes⟩ := exists_digitStream_eq_paddedStream bs
  refine ⟨fun h => ?_, fun h => (encodeChars_eq_map_alpha h).symm⟩
  rw [encodeChars_eq_map_alpha hes, map_alpha_inj] at h
  rw [h, hes]

theorem paddedStream_inj {as bs : List Byte} : paddedStream as = paddedStream bs ↔ as = bs := by
  refine ⟨fun h => ?_, congrArg paddedStream⟩
  have hlen : as.length = bs.length := by
    have := congrArg List.length h
    rw [length_paddedStream, length_paddedStream] at this
    unfold charCount at this
    omega
  exact bitStream_inj.mp (List.append_inj_left h (by rw [length_bitStream, length_bitStream, hlen]))

theorem encodeChars_inj {as bs : List Byte} : encodeChars as = encodeChars bs ↔ as = bs := by
  obtain ⟨ds, hds⟩ := exists_digitStream_eq_paddedStream as
  rw [encodeChars_eq_map_alpha hds, map_alpha_eq_encodeChars_iff, hds, paddedStream_inj]

/-- R146: the encoding is one to one. -/
theorem encodeText_inj {p : Bool} {as bs : List Byte} : encodeText p as = encodeText p bs ↔ as = bs := by
  refine ⟨fun h => encodeChars_inj.mp ?_, congrArg (encodeText p)⟩
  rw [← take_payloadLen_encodeText p as, h, take_payloadLen_encodeText]

/-- R146: a text of digits that passes phase 1 is the encoding of the bytes whose padded stream its digits are. -/
theorem eq_encodeText_iff {p : Bool} {text bs : List Byte} {ds : List Digit} (h : phase1Ok p text)
    (hdigits : text.take (payloadLen p text) = ds.map alpha) :
    text = encodeText p bs ↔ digitStream ds = paddedStream bs := by
  rw [← map_alpha_eq_encodeChars_iff, ← hdigits]
  refine ⟨?_, eq_encodeText_of_payload h⟩
  rintro rfl
  exact take_payloadLen_encodeText p bs

/-! ### The answer -/

theorem DecEnd.of_not_phase1Ok {p : Bool} {text : List Byte} {s : State} (h : DecEnd p text s)
    (hfail : ¬ phase1Ok p text) : s.i = 0 ∧ s.response = ⟨statusInvalidEncoding, 0, []⟩ := by
  cases h with
  | phase1 _ hi hresp => exact ⟨hi, hresp⟩
  | char _ _ hpassed => exact absurd hpassed hfail
  | final _ _ hpassed => exact absurd hpassed hfail

theorem DecEnd.of_digits {p : Bool} {text : List Byte} {s : State} {ds : List Digit} (h : DecEnd p text s)
    (hpassed : phase1Ok p text) (hdigits : text.take (payloadLen p text) = ds.map alpha) :
    ∃ bs, Unpacked ds bs s ∧ s.response = if accLeftover s.acc s.nb.toNat = 0 then ⟨statusOk, bs.length, bs⟩
      else ⟨statusInvalidEncoding, 0, []⟩ := by
  cases h with
  | phase1 hfail => exact absurd hpassed hfail
  | char es c _ hlt _ hstop hinvalid =>
    obtain ⟨d, rfl⟩ := exists_alpha_of_take_eq_map hdigits hlt hstop
    simp at hinvalid
  | final es bs _ hes hunpacked hresp =>
    obtain rfl := map_alpha_inj.mp (hdigits.symm.trans hes)
    exact ⟨bs, hunpacked, hresp⟩

theorem length_of_payload_eq_map {p : Bool} {text : List Byte} {ds : List Digit}
    (h : text.take (payloadLen p text) = ds.map alpha) : ds.length = payloadLen p text := by
  rw [← List.length_map (f := alpha), ← h, List.length_take, min_eq_left (payloadLen_le p text)]

/-- R146: an encoding is answered with its bytes, every other text with INVALID_ENCODING. -/
theorem DecEnd.answer {p : Bool} {text : List Byte} {s : State} (h : DecEnd p text s) :
    (∃ b, text = encodeText p b ∧ s.response = ⟨statusOk, b.length, b⟩) ∨
      ((∀ b, text ≠ encodeText p b) ∧ s.response = ⟨statusInvalidEncoding, 0, []⟩) := by
  cases h with
  | phase1 hfail _ hresp =>
    refine .inr ⟨?_, hresp⟩
    rintro b rfl
    exact hfail (phase1Ok_encodeText p b)
  | char ds c _ hlt _ hstop hinvalid _ hresp =>
    refine .inr ⟨?_, hresp⟩
    rintro b rfl
    obtain ⟨d, rfl⟩ := exists_alpha_of_getElem?_encodeText hlt hstop
    simp at hinvalid
  | final ds bs hpassed hdigits hunpacked hresp =>
    have hnb := hunpacked.nb_le_four (length_of_payload_eq_map hdigits ▸ hpassed.2)
    split at hresp
    next hzero =>
      have hstream := (hunpacked.leftover_eq_zero_iff hnb).mp hzero
      exact .inl ⟨bs, (eq_encodeText_iff hpassed hdigits).mpr hstream, hresp⟩
    next hne =>
      exact .inr ⟨fun b hb => hne (hunpacked.of_paddedStream ((eq_encodeText_iff hpassed hdigits).mp hb)).2, hresp⟩

/-- R145: the text of `b` is answered with `b`. -/
theorem exec_dec_encodeText {p : Bool} {s : State} {b : List Byte} (hs : Holds s (encodeText p b)) :
    Responds (exec (.dec p) s) 1#2 b := by
  obtain ⟨t, hrun, hidle, -, hend⟩ := exists_exec_dec p hs
  obtain ⟨b', hb, hresp⟩ | ⟨hne, -⟩ := hend.answer
  · obtain rfl := encodeText_inj.mp hb
    exact ⟨t, hrun, hidle, hresp⟩
  · exact absurd rfl (hne b)

/-- R146: a text that is no encoding is answered with INVALID_ENCODING. -/
theorem exec_dec_of_ne_encodeText {p : Bool} {s : State} {text : List Byte} (hs : Holds s text)
    (hne : ∀ b, text ≠ encodeText p b) : Responds (exec (.dec p) s) 2#2 [] := by
  obtain ⟨t, hrun, hidle, -, hend⟩ := exists_exec_dec p hs
  obtain ⟨b, hb, -⟩ | ⟨-, hresp⟩ := hend.answer
  · exact absurd hb (hne b)
  · exact ⟨t, hrun, hidle, hresp⟩

theorem exec_dec_of_not_phase1Ok {p : Bool} {s : State} {text : List Byte} (hs : Holds s text)
    (hfail : ¬ phase1Ok p text) : Responds (exec (.dec p) s) 2#2 [] :=
  exec_dec_of_ne_encodeText hs fun b hb => hfail (hb ▸ phase1Ok_encodeText p b)

/-- R138: a '=' in the payload is not of an encoding. -/
theorem ne_encodeText_of_padChar {p : Bool} {text : List Byte} {j : Nat} (hj : j < payloadLen p text)
    (hc : text[j]? = some padChar) (b : List Byte) : text ≠ encodeText p b := by
  rintro rfl
  obtain ⟨d, hd⟩ := exists_alpha_of_getElem?_encodeText hj hc
  exact alpha_ne_padChar d hd

/-! ### The output length (R142) -/

/-- R142: a payload remainder that is not forbidden, in bytes and bits left over. -/
theorem tailBytes_eq : ∀ r < 8, r ≠ 1 ∧ r ≠ 3 ∧ r ≠ 6 →
    tailBytes r = 5 * r / 8 ∧ tailZeros (tailBytes r) = 5 * r % 8 := by
  decide

/-! ### The statements on accepted and rejected texts -/

/-- Settles O39: the answer on each text, and the forms of ENCODE's text under the two policies. -/
theorem decodeAcceptsExactlyTheEncodings : Obligations.DecodeAcceptsExactlyTheEncodings := by
  refine ⟨fun p s text hs => ?_, fun p b b' => encodeText_inj.mp, fun text => ⟨?_, ?_⟩, ?_⟩
  · by_cases h : ∃ b, text = encodeText p b
    · obtain ⟨b, rfl⟩ := h
      exact .inl ⟨b, rfl, exec_dec_encodeText hs⟩
    · have hne := not_exists.mp h
      exact .inr ⟨hne, exec_dec_of_ne_encodeText hs hne⟩
  · rintro ⟨⟨a, ha⟩, b, hb⟩
    have hpad : padChar ∉ text := by
      rw [ha, encodeText_eq, padTail, if_neg Bool.false_ne_true, List.append_nil]
      exact padChar_notMem_encodeChars a
    have hmod := (mod_five_eq_zero_iff_padChar_notMem b).mpr (hb ▸ hpad)
    exact ⟨b, hmod, hb.trans (encodeText_true_eq_false hmod)⟩
  · rintro ⟨b, hmod, rfl⟩
    exact ⟨⟨b, rfl⟩, b, (encodeText_true_eq_false hmod).symm⟩
  · rintro text b rfl
    exact mod_five_eq_zero_iff_padChar_notMem b

/-- Settles O43: T is phase 1's, and a longer run fails it. -/
theorem decodePaddingRun : Obligations.DecodePaddingRun := by
  intro s text hs hmul
  obtain ⟨t, hrun, -, hregs, hend⟩ := exists_exec_dec true hs
  refine ⟨t, hrun, hregs.padding rfl hmul, fun hgt => (hend.of_not_phase1Ok fun h => ?_).2⟩
  exact absurd (h.1 rfl).2 (Nat.not_le.mpr hgt)

/-- Settles O44: L is phase 1's. -/
theorem decodePayloadLength : Obligations.DecodePayloadLength := by
  refine ⟨fun s text hs hmul hle => ?_, fun s text hs => ?_⟩
  · obtain ⟨t, hrun, -, hregs, -⟩ := exists_exec_dec true hs
    have hl : t.l = text.length - padRun text := hregs.payload fun _ => ⟨hmul, hle⟩
    have := padRun_le_length text
    exact ⟨t, hrun, hl, by omega⟩
  · obtain ⟨t, hrun, -, hregs, -⟩ := exists_exec_dec false hs
    exact ⟨t, hrun, hregs.payload nofun⟩

/-- Settles O45: the remainder check is phase 1's, and phase 1 leaves I at 0. -/
theorem decodeForbiddenRemainder : Obligations.DecodeForbiddenRemainder := by
  intro p s text hs _ hrem
  obtain ⟨t, hrun, hidle, -, hend⟩ := exists_exec_dec p hs
  obtain ⟨hi, hresp⟩ := hend.of_not_phase1Ok fun h => by
    have := h.2
    omega
  exact ⟨t, hrun, hidle, hresp, hi⟩

/-- Settles O46: the offset at which the loop stopped is the first with no digit. -/
theorem decodeInvalidCharacter : Obligations.DecodeInvalidCharacter := by
  intro p s text j c hs hpassed hj hc hinvalid hbefore
  obtain ⟨t, hrun, hidle, -, hend⟩ := exists_exec_dec p hs
  cases hend with
  | phase1 hfail => exact absurd hpassed hfail
  | char ds c' _ _ hdigits hstop hinvalid' hi hresp =>
    have hge : j ≤ ds.length := by
      by_contra hlt
      obtain ⟨d, v, hd, hv⟩ := hbefore ds.length (Nat.not_le.mp hlt)
      obtain rfl := Option.some_inj.mp (hstop.symm.trans hd)
      simp [hv] at hinvalid'
    have hle : ds.length ≤ j := by
      by_contra hlt
      obtain ⟨d, rfl⟩ := exists_alpha_of_take_eq_map hdigits (Nat.not_le.mp hlt) hc
      simp at hinvalid
    exact ⟨t, hrun, hidle, hresp, by omega⟩
  | final ds bs _ hdigits =>
    obtain ⟨d, rfl⟩ := exists_alpha_of_take_eq_map hdigits hj hc
    simp at hinvalid

/-- Settles O47: an encoding's characters hold no '='. -/
theorem decodePaddingInPayloadFails : Obligations.DecodePaddingInPayloadFails := by
  refine ⟨rev_padChar, fun p s text j hs hj hc => ?_, fun s text hs hmem => ?_⟩
  · exact exec_dec_of_ne_encodeText hs (ne_encodeText_of_padChar hj hc)
  · obtain ⟨j, hj⟩ := List.mem_iff_getElem?.mp hmem
    have hlt : j < payloadLen false text := (List.getElem?_eq_some_iff.mp hj).1
    exact exec_dec_of_ne_encodeText hs (ne_encodeText_of_padChar hlt hj)

/-- Settles O48: NB and the bits left over are what the loop keeps of the digits. -/
theorem decodeTailBits : Obligations.DecodeTailBits := by
  intro p s text ds last hs hpassed hdigits
  obtain ⟨t, hrun, -, -, hend⟩ := exists_exec_dec p hs
  obtain ⟨bs, hunpacked, hresp⟩ := hend.of_digits hpassed hdigits
  have hlen := length_of_payload_eq_map hdigits
  have hnb : t.nb.toNat = 5 * payloadLen p text % 8 := hlen ▸ hunpacked.nb_eq
  have hleft := hunpacked.leftover_eq_mod ((hunpacked.nb_le_four (hlen ▸ hpassed.2)).trans (by norm_num))
  rw [hleft] at hresp
  have hzeros : t.nb.toNat = tailZeros (tailBytes (payloadLen p text % 8)) := by
    rw [(tailBytes_eq _ (Nat.mod_lt _ (by norm_num)) hpassed.2).2, hnb]
    omega
  refine ⟨t, hrun, hnb, hzeros, ?_⟩
  split at hresp
  next hzero =>
    have hout : t.out = bs := congrArg Response.out hresp
    rw [if_neg (not_not.mpr hzero), hout, hunpacked.length_eq, hlen]
    exact ⟨congrArg Response.status hresp, fun _ => rfl⟩
  next hne =>
    have hstatus : t.status = 2#2 := congrArg Response.status hresp
    rw [if_pos hne, hstatus]
    exact ⟨rfl, fun h => absurd h (by decide)⟩

/-- Settles O49: a text answered OK is an encoding, whose payload is its characters. -/
theorem decodeOutputLength : Obligations.DecodeOutputLength := by
  intro p s t text hs hexec hstatus
  obtain ⟨t', hrun, -, -, hend⟩ := exists_exec_dec p hs
  obtain rfl := Host.Outcome.next.inj (hexec.symm.trans hrun)
  obtain ⟨b, rfl, hresp⟩ | ⟨-, hresp⟩ := hend.answer
  · have hlen : t.outLen = b.length := congrArg Response.outLen hresp
    have htail := (tailBytes_eq _ (Nat.mod_lt _ (by norm_num)) (phase1Ok_encodeText p b).2).1
    rw [payloadLen_encodeText] at htail ⊢
    rw [hlen, htail]
    unfold charCount
    omega
  · have hstatus' : t.status = 2#2 := congrArg Response.status hresp
    rw [hstatus'] at hstatus
    exact absurd hstatus (by decide)

/-- Settles O51: under P = 0 the first '=' is in the payload, and under P = 1 a run that long fails phase 1. -/
theorem decodeAllPaddingFails : Obligations.DecodeAllPaddingFails := by
  intro p s m hs
  cases p with
  | false =>
    refine exec_dec_of_ne_encodeText hs (ne_encodeText_of_padChar (j := 0) ?_ rfl)
    rw [payloadLen_false, List.length_replicate]
    exact Nat.succ_pos m
  | true =>
    refine exec_dec_of_not_phase1Ok hs fun h => ?_
    have hrun : padRun (List.replicate (m + 1) padChar) = m + 1 :=
      padRun_append_replicate (chars := []) List.not_mem_nil (m + 1)
    have := h.1 rfl
    rw [hrun, List.length_replicate] at this
    omega

/-- Settles O52: these lengths and runs fail phase 1. -/
theorem decodeForbiddenLengths : Obligations.DecodeForbiddenLengths := by
  intro s text hs
  refine ⟨fun hrem => ?_, fun hmul => ?_, fun hmul hrun => ?_⟩ <;> refine exec_dec_of_not_phase1Ok hs fun h => ?_
  · have := h.2
    rw [payloadLen_false] at this
    omega
  · exact hmul (h.1 rfl).1
  · have := h.2
    have := padRun_le_length text
    rw [payloadLen_true] at *
    omega

end Sys2Proof

/-! The group view of DECODE (R149 of 42_decode.md): a full group of digits has the bits of its 5 bytes, and the bytes
of a partial group are the first of the group in which the missing digits are 0. -/

namespace Sys2Proof

open Machine Spec

theorem bitStream_group5 (d0 d1 d2 d3 d4 d5 d6 d7 : Digit) :
    bitStream (group5 d0 d1 d2 d3 d4 d5 d6 d7) = digitStream [d0, d1, d2, d3, d4, d5, d6, d7] := by
  simp only [digitStream, group5, digitBits, bitStream, bitsOf, List.flatMap_cons, List.flatMap_nil, List.cons_append,
    List.nil_append]
  grind

theorem take_bitStream (bs : List Byte) (k : Nat) : (bitStream bs).take (8 * k) = bitStream (bs.take k) := by
  obtain hk | hk := le_total bs.length k
  · rw [List.take_of_length_le hk, List.take_of_length_le (by rw [length_bitStream]; omega)]
  · conv_lhs => rw [← List.take_append_drop k bs, bitStream_append]
    exact List.take_left' (by rw [length_bitStream, List.length_take, min_eq_left hk])

/-- A full group before the digits is 5 bytes before the bytes. -/
theorem group_append_eq_paddedStream_iff {g b : List Byte} {l : List Bool} (hg : g.length = 5) :
    bitStream g ++ l = paddedStream b ↔ ∃ b', l = paddedStream b' ∧ g ++ b' = b := by
  constructor
  · intro h
    have hlen := congrArg List.length h
    rw [List.length_append, length_bitStream, length_paddedStream, hg] at hlen
    have hb : (b.take 5).length = 5 := by
      rw [List.length_take]
      unfold charCount at hlen
      omega
    rw [← List.take_append_drop 5 b, paddedStream_append (q := 1) hb] at h
    obtain ⟨htake, hdrop⟩ := List.append_inj h (by rw [length_bitStream, length_bitStream, hg, hb])
    exact ⟨b.drop 5, hdrop, by rw [bitStream_inj.mp htake, List.take_append_drop]⟩
  · rintro ⟨b', rfl, rfl⟩
    exact (paddedStream_append (q := 1) hg).symm

/-- A partial group is the padded stream of the completed group's first `k` bytes, where its leftover bits are 0. -/
theorem partial_eq_paddedStream_iff {ds es : List Digit} {g b : List Byte} {k : Nat} (hlen : ds.length = charCount k)
    (hg : bitStream g = digitStream (ds ++ es)) :
    digitStream ds = paddedStream b ↔
      (digitStream ds).drop (8 * k) = List.replicate (5 * charCount k - 8 * k) false ∧ g.take k = b := by
  have hle : 8 * k ≤ (digitStream ds).length := by
    rw [length_digitStream, hlen]
    unfold charCount
    omega
  have hbytes : (digitStream ds).take (8 * k) = bitStream (g.take k) := by
    rw [← take_bitStream, hg, digitStream_append, List.take_append_of_le_length hle]
  have hk : (g.take k).length = k := by
    have := congrArg List.length hbytes
    rw [List.length_take, min_eq_left hle, length_bitStream] at this
    omega
  have hpad : paddedStream (g.take k) =
      (digitStream ds).take (8 * k) ++ List.replicate (5 * charCount k - 8 * k) false := by
    rw [paddedStream, hk, hbytes]
  constructor
  · intro h
    have hb : b.length = k := by
      have := (length_of_digitStream_eq h).symm.trans hlen
      unfold charCount at this
      omega
    have hcut : (bitStream b).length = 8 * k := by rw [length_bitStream, hb]
    have htake : (digitStream ds).take (8 * k) = bitStream b := by rw [h, paddedStream, List.take_left' hcut]
    refine ⟨by rw [h, paddedStream, List.drop_left' hcut, hb], bitStream_inj.mp (hbytes.symm.trans htake)⟩
  · rintro ⟨hdrop, rfl⟩
    rw [hpad, ← hdrop, List.take_append_drop]

/-- The leftover bits of a partial group's last digit are its last bits. -/
theorem extractLsb'_eq_zero_iff : ∀ z ≤ 5, ∀ d : Digit,
    d.extractLsb' 0 z = 0#z ↔ (digitBits d).drop (5 - z) = List.replicate z false := by
  decide

/-- A partial group's answer, where `z` bits of its last digit `d` are left over. -/
theorem ite_eq_some_iff_eq_paddedStream {ds es : List Digit} {d : Digit} {g b : List Byte} {k z : Nat}
    (hlen : (ds ++ [d]).length = charCount k) (hg : bitStream g = digitStream (ds ++ [d] ++ es))
    (hz : 5 * charCount k - 8 * k = z) (hz5 : z ≤ 5) :
    (if d.extractLsb' 0 z = 0#z then some (g.take k) else none) = some b ↔
      digitStream (ds ++ [d]) = paddedStream b := by
  have hds : 8 * k = (digitStream ds).length + (5 - z) := by
    rw [List.length_append, List.length_singleton] at hlen
    rw [length_digitStream]
    unfold charCount at hlen hz
    omega
  have hdrop : (digitStream (ds ++ [d])).drop (8 * k) = (digitBits d).drop (5 - z) := by
    rw [digitStream_append, hds, List.drop_length_add_append]
    exact congrArg (List.drop (5 - z)) (List.append_nil _)
  rw [partial_eq_paddedStream_iff hlen hg, hdrop, hz, ← extractLsb'_eq_zero_iff z hz5]
  by_cases hzero : d.extractLsb' 0 z = 0#z <;> simp [hzero]

/-- R135: no bytes have 1, 3 or 6 characters. -/
theorem ne_paddedStream_of_length {ds : List Digit} (h : ds.length = 1 ∨ ds.length = 3 ∨ ds.length = 6)
    (b : List Byte) : digitStream ds ≠ paddedStream b := fun he => by
  have := length_of_digitStream_eq he
  unfold charCount at this
  omega

/-- R149: the group view gives the bytes whose padded stream the digits are, and no others. -/
theorem decodeGroups_eq_some_iff {b : List Byte} :
    ∀ {ds : List Digit}, decodeGroups ds = some b ↔ digitStream ds = paddedStream b
  | d0 :: d1 :: d2 :: d3 :: d4 :: d5 :: d6 :: d7 :: rest => by
    have hsplit : digitStream (d0 :: d1 :: d2 :: d3 :: d4 :: d5 :: d6 :: d7 :: rest) =
        bitStream (group5 d0 d1 d2 d3 d4 d5 d6 d7) ++ digitStream rest := by
      rw [bitStream_group5, ← digitStream_append]
      rfl
    show (decodeGroups rest).map (group5 d0 d1 d2 d3 d4 d5 d6 d7 ++ ·) = some b ↔ _
    rw [hsplit, group_append_eq_paddedStream_iff rfl, Option.map_eq_some_iff]
    exact exists_congr fun b' => and_congr_left' decodeGroups_eq_some_iff
  | [d0, d1, d2, d3, d4, d5, d6] =>
    ite_eq_some_iff_eq_paddedStream (ds := [d0, d1, d2, d3, d4, d5]) (k := 4) (z := 3) rfl (bitStream_group5 ..) rfl
      (by decide)
  | [d0, d1, d2, d3, d4] =>
    ite_eq_some_iff_eq_paddedStream (ds := [d0, d1, d2, d3]) (k := 3) (z := 1) rfl (bitStream_group5 ..) rfl (by decide)
  | [d0, d1, d2, d3] =>
    ite_eq_some_iff_eq_paddedStream (ds := [d0, d1, d2]) (k := 2) (z := 4) rfl (bitStream_group5 ..) rfl (by decide)
  | [d0, d1] =>
    ite_eq_some_iff_eq_paddedStream (ds := [d0]) (k := 1) (z := 2) rfl (bitStream_group5 ..) rfl (by decide)
  | [d0, d1, d2, d3, d4, d5] =>
    iff_of_false nofun (ne_paddedStream_of_length (ds := [d0, d1, d2, d3, d4, d5]) (.inr (.inr rfl)) b)
  | [d0, d1, d2] =>
    iff_of_false nofun (ne_paddedStream_of_length (ds := [d0, d1, d2]) (.inr (.inl rfl)) b)
  | [d0] =>
    iff_of_false nofun (ne_paddedStream_of_length (ds := [d0]) (.inl rfl) b)
  | [] => Option.some_inj.trans paddedStream_inj.symm

/-- Settles O41: the bytes of the group view are those whose encoding the text is. -/
theorem decodeEqualsTheGroupView : Obligations.DecodeEqualsTheGroupView := by
  intro p s text ds hs hpassed hdigits
  cases hgroups : decodeGroups ds with
  | some b =>
    obtain rfl := (eq_encodeText_iff hpassed hdigits).mpr (decodeGroups_eq_some_iff.mp hgroups)
    exact exec_dec_encodeText hs
  | none =>
    refine exec_dec_of_ne_encodeText hs fun b hb => ?_
    have := decodeGroups_eq_some_iff.mpr ((eq_encodeText_iff hpassed hdigits).mp hb)
    simp [hgroups] at this

end Sys2Proof

/-! DECODE with no read of IN (R131, R143 of 42_decode.md), and the two commands taken from the port (R145, R147). -/

namespace Sys2Proof

open Machine Spec

/-! ### The length check and the empty text -/

theorem exec_dec_of_length {s : State} (h : s.n % 8 ≠ 0) :
    exec (.dec true) s = .next (s.clearWork.fail statusInvalidEncoding) := by
  show runToIdle true (decBound s.n) (decStart true s) = _
  rw [decStart_of_length h, runToIdle_idle rfl]

/-- With N = 0 phase 1 reads nothing and goes to the tail check. -/
theorem decStruct_of_n_eq_zero {p : Bool} {s : State} (hn : s.n = 0) (hi : s.i = 0) (ht : p = true → s.t = 0#4) :
    decStruct p s = .next { s with l := 0, phase := .dFinal } := by
  have hnext : decNextPhase { s with l := 0 } = .dFinal := by simp [decNextPhase, hi]
  have hend : decStruct p s = .next (decSetPayload 0 s) := by
    cases p with
    | false => simp [decStruct, hn]
    | true => simp [decStruct, decEndPadRun, hn, ht rfl]
  rw [hend, decSetPayload_of_not_forbidden rfl, hnext]

/-- R141: with no bits left over the last step completes OK. -/
theorem runToIdle_of_dFinal {p : Bool} {f : Nat} {s : State} (hph : s.phase = .dFinal) (hnb : s.nb = 0#4) :
    runToIdle p (f + 1) s = .next s.completeOk := by
  have hfinal : microStep p s = .next s.completeOk := by simp [microStep, hph, decFinal, hnb]
  rw [runToIdle_busy (by simp [hph]) hfinal, runToIdle_idle rfl]

/-- Nothing is read and nothing is emitted. -/
theorem exec_dec_of_n_eq_zero (p : Bool) {s : State} (hn : s.n = 0) :
    exec (.dec p) s = .next { decStart p s with l := 0, phase := .dFinal }.completeOk := by
  have hstart := decStart_of_not_length (p := p) (s := s) fun _ => by rw [hn]
  have hph : (decStart p s).phase = .dStruct := by rw [hstart]
  have hnb : (decStart p s).nb = 0#4 := by rw [hstart]; rfl
  have hstruct : microStep p (decStart p s) = .next { decStart p s with l := 0, phase := .dFinal } := by
    rw [← decStruct_of_n_eq_zero (p := p) ((decStart_same p s).n.trans hn) (by rw [hstart]; rfl)
      (by rintro rfl; rw [hstart]; rfl)]
    simp [microStep, hph]
  show runToIdle p (decBound s.n) (decStart p s) = _
  rw [hn, decBound, runToIdle_busy (by simp [hph]) hstruct]
  exact runToIdle_of_dFinal (f := 7) rfl hnb

/-- Settles O50: phase 1 goes straight to the tail check, which finds NB = 0 and K = 0. -/
theorem decodeOfEmptyIsEmpty : Obligations.DecodeOfEmptyIsEmpty := by
  intro p s hn
  refine ⟨_, exec_dec_of_n_eq_zero p hn, rfl, ?_⟩
  rw [decStart_of_not_length fun _ => by rw [hn]]
  rfl

/-- Settles O42: the failure is the start's, and the empty text passes. -/
theorem decodeLengthCheck : Obligations.DecodeLengthCheck :=
  ⟨fun _ => exec_dec_of_length, fun s => decodeOfEmptyIsEmpty true s⟩

/-! ### The command at the port (R172, R194) -/

theorem step_of_intake_rejected {s u : State} {c : Command} (h : Presented s c) (hin : intake s = .rejected u) :
    step s = .next u := by
  obtain ⟨hidle, hacts, -⟩ := h
  simp [step, nextStep, hacts, commandStep, hidle, hin]

theorem step_of_intake_accepted {s u : State} {c : Command} {i : Instr} (h : Presented s c)
    (hin : intake s = .accepted i u) : step s = exec i u := by
  obtain ⟨hidle, hacts, -⟩ := h
  simp [step, nextStep, hacts, commandStep, hidle, hin]

/-- What acceptance makes of the state has the command's input. -/
theorem holds_bindInput (s : State) (c : Command) : Holds ((s.latch c).bindInput c) c.input := ⟨rfl, rfl, rfl⟩

/-- R172, R194: the step of a presented command answers BAD_COMMAND, or is the command's meaning on its input. -/
theorem step_cases_of_presented {s : State} {c : Command} (h : Presented s c) :
    step s = .next ((s.latch c).fail statusBadCommand) ∨
      ∃ i, decodeWord c.cmd = .ok i ∧ step s = exec i ((s.latch c).bindInput c) := by
  obtain ⟨hport, -⟩ | ⟨c', hport, hin, -⟩ | ⟨c', i, hport, hdec, -, hin⟩ := intake_cases s
  · simp [h.2.2] at hport
  · obtain rfl := Option.some_inj.mp (h.2.2.symm.trans hport)
    exact .inl (step_of_intake_rejected h hin)
  · obtain rfl := Option.some_inj.mp (h.2.2.symm.trans hport)
    exact .inr ⟨i, hdec, step_of_intake_accepted h hin⟩

/-- R194: an acceptable command is run. -/
theorem step_of_presented {s : State} {c : Command} {i : Instr} (h : Presented s c) (hdec : decodeWord c.cmd = .ok i)
    (hacc : s.cfg.accepts c.n = true) : step s = exec i ((s.latch c).bindInput c) := by
  refine step_of_intake_accepted h ?_
  simp [intake, h.2.2, hdec, hacc]

/-- Settles O17: a refusal and a failing DECODE answer with no bytes, and ENCODE does not fail. -/
theorem failureExposesNoOutput : Obligations.FailureExposesNoOutput := by
  intro s t c hpres hstep hstatus
  obtain hrej | ⟨i, -, hrun⟩ := step_cases_of_presented hpres
  · obtain rfl := Host.Outcome.next.inj (hrej.symm.trans hstep)
    exact ⟨rfl, rfl⟩
  · have hs := holds_bindInput s c
    rw [hrun] at hstep
    cases i with
    | enc p =>
      obtain ⟨t', ht, hok, -⟩ := exists_exec_enc p hs
      obtain rfl := Host.Outcome.next.inj (ht.symm.trans hstep)
      exact absurd hok hstatus
    | dec p =>
      obtain ⟨t', ht, -, -, hend⟩ := exists_exec_dec p hs
      obtain rfl := Host.Outcome.next.inj (ht.symm.trans hstep)
      obtain ⟨b, -, hresp⟩ | ⟨-, hresp⟩ := hend.answer
      · exact absurd (congrArg Response.status hresp) hstatus
      · exact ⟨congrArg Response.outLen hresp, congrArg Response.out hresp⟩

/-! ### The round trip (R145) -/

@[simp] theorem decodeWord_encodeWord (i : Instr) : decodeWord (encodeWord i) = .ok i := by
  cases i with
  | enc p => cases p <;> decide
  | dec p => cases p <;> decide

theorem accepts_of_le {cfg : Config} {m n : Nat} (h : cfg.accepts n = true) (hle : m ≤ n) : cfg.accepts m = true := by
  unfold Config.accepts at *
  split at h
  next => rfl
  next => exact decide_eq_true (hle.trans (of_decide_eq_true h))

theorem length_encodeText_le (p : Bool) (bs : List Byte) : (encodeText p bs).length ≤ 8 * ((bs.length + 4) / 5) := by
  rw [← charCount_add_padCount]
  cases p with
  | false => exact (length_encodeText_false bs).trans_le (Nat.le_add_right _ _)
  | true => exact (length_encodeText_true bs).le

/-- R145: an encoding presented to DECODE is answered with its bytes. -/
theorem step_dec_of_presented {p : Bool} {s : State} {c : Command} {b : List Byte} (h : Presented s c)
    (hdec : decodeWord c.cmd = .ok (.dec p)) (hacc : s.cfg.accepts c.n = true) (hin : c.input = encodeText p b) :
    Responds (step s) 1#2 b := by
  rw [step_of_presented h hdec hacc]
  exact exec_dec_encodeText (hin ▸ holds_bindInput s c)

/-- Settles O40: what ENCODE leaves accepts the next command, whose text is an encoding. -/
theorem roundTripThroughTheMachine : Obligations.RoundTripThroughTheMachine := by
  intro p s b hpres hacc hacc'
  have hholds := holds_bindInput s ⟨encodeWord (.enc p), b⟩
  obtain ⟨t, hrun, hidle, hresp⟩ := encodeOutputIsTheClosedForm p _ b hholds
  have hstep := (step_of_presented hpres (decodeWord_encodeWord _) hacc).trans hrun
  have hout : t.out = encodeText p b := congrArg Response.out hresp
  have hsame := (encStart_same _).trans (runToIdle_same hrun)
  have hpres' : Presented (t.present ⟨encodeWord (.dec p), t.out⟩) ⟨encodeWord (.dec p), t.out⟩ :=
    ⟨hidle, hsame.hostActions.trans hpres.2.1, rfl⟩
  have hfits : t.cfg.accepts t.out.length = true := by
    rw [hsame.cfg, hout]
    exact accepts_of_le hacc' (length_encodeText_le p b)
  obtain ⟨u, hstep', hidle', hresp'⟩ := step_dec_of_presented hpres' (decodeWord_encodeWord _) hfits hout
  exact ⟨t, u, hstep, hstep', hidle', congrArg Response.status hresp', congrArg Response.outLen hresp',
    congrArg Response.out hresp'⟩

end Sys2Proof

/-! A command's outcomes (R170, R172, R186 of 60_exceptions.md): the step of a presented command answers one of the
three, the internal steps get to the same state (R198, R199 of 70_reset_and_hazards.md), and a refusal touches nothing
but CMD, N and the response. -/

namespace Sys2Proof

open Machine Spec

/-! ### The internal steps of a whole command (R198, R199) -/

theorem step_eq_commandStep {s : State} {c : Command} (h : Presented s c) : step s = commandStep s := by
  simp [step, nextStep, h.2.1]

theorem blockSteps_succ {k : Nat} {s u : State} (h : blockStep s = .next u) :
    blockSteps (k + 1) s = blockSteps k u := by
  simp [blockSteps, h]

theorem blockStep_of_busy {s : State} (hb : s.phase ≠ .idle) : blockStep s = microStep s.policy s := if_neg hb

theorem Machine.SameCommand.policy {s t : State} (h : SameCommand s t) : t.policy = s.policy :=
  congrArg policyField h.cmd

/-- A run under the latched policy is made of internal steps of the block, no more than its bound. -/
theorem exists_blockSteps_of_runToIdle {f : Nat} {s t : State} (h : runToIdle s.policy f s = .next t) :
    ∃ k ≤ f, blockSteps k s = .next t := by
  induction f generalizing s with
  | zero =>
    unfold runToIdle at h
    split at h
    · exact ⟨0, le_rfl, h⟩
    · cases h
  | succ f ih =>
    unfold runToIdle at h
    split at h
    · exact ⟨0, Nat.zero_le _, h⟩
    next hb =>
      split at h
      next u hm =>
        rw [← (microStep_same hm).policy] at h
        obtain ⟨k, hk, hsteps⟩ := ih h
        exact ⟨k + 1, Nat.succ_le_succ hk, (blockSteps_succ ((blockStep_of_busy hb).trans hm)).trans hsteps⟩
      · cases h
      · cases h

/-- The internal steps that R198 allows a command on an input of length `n` after its start. -/
def instrBound (i : Instr) (n : Nat) : Nat :=
  match i with
  | .enc _ => encBound n
  | .dec _ => decBound n

theorem startCommand_same (i : Instr) (s : State) : SameCommand s (startCommand i s) := by
  cases i with
  | enc p => exact encStart_same s
  | dec p => exact decStart_same p s

/-- The meaning of the latched command is a run from its start, under the latched policy. -/
theorem exec_eq_runToIdle {i : Instr} {s : State} (h : decodeWord s.cmd = .ok i) :
    exec i s = runToIdle (startCommand i s).policy (instrBound i s.n) (startCommand i s) := by
  rw [(startCommand_same i s).policy]
  cases i with
  | enc p =>
    obtain ⟨-, -, rfl⟩ := decodeWord_eq_ok_enc_iff.mp h
    rfl
  | dec p =>
    obtain ⟨-, -, rfl⟩ := decodeWord_eq_ok_dec_iff.mp h
    rfl

/-- An accepted command takes one internal step for its acceptance, and then those of its run. -/
theorem exists_blockSteps_of_accepted {i : Instr} {s u t : State} (hidle : s.phase = .idle)
    (hin : intake s = .accepted i u) (hdec : decodeWord u.cmd = .ok i) (hrun : exec i u = .next t) :
    ∃ k ≤ instrBound i u.n + 1, blockSteps k s = .next t := by
  obtain ⟨k, hk, hsteps⟩ := exists_blockSteps_of_runToIdle ((exec_eq_runToIdle hdec).symm.trans hrun)
  have hstart : blockStep s = .next (startCommand i u) := by simp [blockStep, hidle, hin]
  exact ⟨k + 1, Nat.succ_le_succ hk, (blockSteps_succ hstart).trans hsteps⟩

/-- What an IDLE block answers as one transition, its internal steps get to. -/
theorem exists_blockSteps_of_commandStep {s t : State} (hidle : s.phase = .idle) (h : commandStep s = .next t) :
    ∃ k, blockSteps k s = .next t := by
  obtain ⟨-, hin⟩ | ⟨c, -, hin, -⟩ | ⟨c, i, -, hdec, -, hin⟩ := intake_cases s
  · exact ⟨0, by simpa [blockSteps, commandStep, hidle, hin] using h⟩
  · refine ⟨1, blockSteps_succ (k := 0) ?_⟩
    simpa [commandStep, blockStep, hidle, hin] using h
  · have hrun : exec i ((s.latch c).bindInput c) = .next t := by simpa [commandStep, hidle, hin] using h
    obtain ⟨k, -, hsteps⟩ := exists_blockSteps_of_accepted hidle hin hdec hrun
    exact ⟨k, hsteps⟩

/-! ### The three outcomes (R170, R186) -/

/-- R108, R170, R186: a command completes OK, or is a DECODE and completes with INVALID_ENCODING. -/
theorem exists_exec_of_holds (i : Instr) {s : State} {bs : List Byte} (hs : Holds s bs) :
    ∃ t, exec i s = .next t ∧ t.phase = .idle ∧ (t.status = 1#2 ∨ t.status = 2#2 ∧ ∃ p, i = .dec p) := by
  cases i with
  | enc p =>
    obtain ⟨t, hrun, hidle, hresp⟩ := encodeOutputIsTheClosedForm p s bs hs
    exact ⟨t, hrun, hidle, .inl (congrArg Response.status hresp)⟩
  | dec p =>
    obtain ⟨t, hrun, hidle, -, hend⟩ := exists_exec_dec p hs
    refine ⟨t, hrun, hidle, ?_⟩
    obtain ⟨b, -, hresp⟩ | ⟨-, hresp⟩ := hend.answer
    · exact .inl (congrArg Response.status hresp)
    · exact .inr ⟨congrArg Response.status hresp, p, rfl⟩

theorem exec_same {i : Instr} {s t : State} (h : exec i s = .next t) : SameCommand s t := by
  cases i with
  | enc p => exact (encStart_same s).trans (runToIdle_same h)
  | dec p => exact (decStart_same p s).trans (runToIdle_same h)

/-- R170, R186: the outcome of a presented command, by what the command is. -/
theorem exists_step_of_presented {s : State} {c : Command} (h : Presented s c) :
    ∃ t, step s = .next t ∧ t.phase = .idle ∧ t.port = none ∧
      (t.status = 3#2 ∨ t.status = 1#2 ∨ t.status = 2#2 ∧ ∃ p, decodeWord c.cmd = .ok (.dec p)) := by
  obtain hrej | ⟨i, hdec, hstep⟩ := step_cases_of_presented h
  · exact ⟨_, hrej, rfl, rfl, .inl rfl⟩
  · obtain ⟨t, hrun, hidle, hstatus⟩ := exists_exec_of_holds i (holds_bindInput s c)
    refine ⟨t, hstep.trans hrun, hidle, (exec_same hrun).port, .inr (hstatus.imp_right ?_)⟩
    rintro ⟨hbad, p, rfl⟩
    exact ⟨hbad, p, hdec⟩

/-- Settles O14: the step's outcome, and the internal steps that get to the same state. -/
theorem everyCommandEndsInOneOutcome : Obligations.EveryCommandEndsInOneOutcome := by
  intro s c hpres
  obtain ⟨t, hstep, hidle, hport, hstatus⟩ := exists_step_of_presented hpres
  have hsteps := exists_blockSteps_of_commandStep hpres.1 ((step_eq_commandStep hpres).symm.trans hstep)
  refine ⟨t, hstep, hsteps, hidle, hport, ?_⟩
  obtain h3 | h1 | ⟨h2, -⟩ := hstatus
  · exact .inr (.inr h3)
  · exact .inl h1
  · exact .inr (.inl h2)

/-- Settles O15: a refusal and an OK have another status. -/
theorem invalidEncodingMeansDecode : Obligations.InvalidEncodingMeansDecode := by
  intro s t c hpres hstep hstatus
  obtain ⟨t', hstep', -, -, hcases⟩ := exists_step_of_presented hpres
  obtain rfl := Host.Outcome.next.inj (hstep'.symm.trans hstep)
  obtain h3 | h1 | ⟨-, hdec⟩ := hcases
  · simp [hstatus] at h3
  · simp [hstatus] at h1
  · exact hdec

/-! ### The refusal (R172) -/

/-- A word that names a command has RSV = 0 and OP 0 or 1 (R61). -/
theorem fields_of_decodeWord_eq_ok {w : Byte} {i : Instr} (h : decodeWord w = .ok i) :
    rsvField w = 0#5 ∧ (opField w = 0#2 ∨ opField w = 1#2) := by
  cases i with
  | enc p =>
    obtain ⟨hrsv, hop, -⟩ := decodeWord_eq_ok_enc_iff.mp h
    exact ⟨hrsv, .inl hop⟩
  | dec p =>
    obtain ⟨hrsv, hop, -⟩ := decodeWord_eq_ok_dec_iff.mp h
    exact ⟨hrsv, .inr hop⟩

theorem le_of_accepts {cfg : Config} {m n : Nat} (h : cfg.accepts n = true) (hmax : cfg.nMax = some m) : n ≤ m := by
  simpa [Config.accepts, hmax] using h

/-- A command that is not acceptable is refused. -/
theorem step_of_not_acceptable {s : State} {c : Command} (h : Presented s c)
    (hbad : ∀ i, decodeWord c.cmd = .ok i → ¬ s.cfg.accepts c.n = true) :
    step s = .next ((s.latch c).fail statusBadCommand) := by
  obtain ⟨hport, -⟩ | ⟨c', hport, hin, -⟩ | ⟨c', i, hport, hdec, hacc, -⟩ := intake_cases s
  · simp [h.2.2] at hport
  · obtain rfl := Option.some_inj.mp (h.2.2.symm.trans hport)
    exact step_of_intake_rejected h hin
  · obtain rfl := Option.some_inj.mp (h.2.2.symm.trans hport)
    exact absurd hacc (hbad i hdec)

/-- Settles O12: each of the four causes makes the command not acceptable, and IDLE is the phase already. -/
theorem badCommandIsRefusedUntouched : Obligations.BadCommandIsRefusedUntouched := by
  intro s c hpres hcause
  rw [step_of_not_acceptable hpres, State.fail, State.latch, ← hpres.1]
  · rfl
  · intro i hdec hacc
    obtain ⟨hrsv, hop⟩ := fields_of_decodeWord_eq_ok hdec
    obtain h2 | h3 | hrsv' | ⟨m, hmax, hlt⟩ := hcause
    · simp [h2] at hop
    · simp [h3] at hop
    · exact hrsv' hrsv
    · exact absurd (le_of_accepts hacc hmax) (Nat.not_le.mpr hlt)

end Sys2Proof

/-! The response record (R196, R200 of 70_reset_and_hazards.md): it depends on the command and N_MAX alone, and a step
changes it only where a command completes or at reset. -/

namespace Sys2Proof

open Machine Spec

/-! ### What the response depends on (R200) -/

/-- The response of a command's meaning is fixed by the command and its input. -/
theorem exists_forall_exec_responds (i : Instr) (bs : List Byte) :
    ∃ st out, ∀ s, Holds s bs → Responds (exec i s) st out := by
  cases i with
  | enc p => exact ⟨1#2, encodeText p bs, fun s => encodeOutputIsTheClosedForm p s bs⟩
  | dec p =>
    by_cases h : ∃ b, bs = encodeText p b
    · obtain ⟨b, rfl⟩ := h
      exact ⟨1#2, b, fun _ => exec_dec_encodeText⟩
    · exact ⟨2#2, [], fun _ hs => exec_dec_of_ne_encodeText hs fun b hb => h ⟨b, hb⟩⟩

/-- The response to a presented command, refused or run, is fixed by the command and the configuration. -/
theorem exists_forall_step_responds (c : Command) (cfg : Config) :
    ∃ st out, ∀ s, Presented s c → s.cfg = cfg → Responds (step s) st out := by
  by_cases h : ∃ i, decodeWord c.cmd = .ok i ∧ cfg.accepts c.n = true
  · obtain ⟨i, hdec, hacc⟩ := h
    obtain ⟨st, out, hresp⟩ := exists_forall_exec_responds i c.input
    refine ⟨st, out, ?_⟩
    rintro s hpres rfl
    rw [step_of_presented hpres hdec hacc]
    exact hresp _ (holds_bindInput s c)
  · refine ⟨statusBadCommand, [], ?_⟩
    rintro s hpres rfl
    exact ⟨_, step_of_not_acceptable hpres fun i hdec hacc => h ⟨i, hdec, hacc⟩, rfl, rfl⟩

/-- Settles O16: N_MAX is the whole configuration, so both steps give the one response it and the command fix. -/
theorem responseDependsOnTheCommandOnly : Obligations.ResponseDependsOnTheCommandOnly := by
  intro s s' c hpres hpres' hmax
  obtain ⟨st, out, hresp⟩ := exists_forall_step_responds c s.cfg
  obtain ⟨t, hstep, -, ht⟩ := hresp s hpres rfl
  obtain ⟨t', hstep', -, ht'⟩ := hresp s' hpres' (congrArg Config.mk hmax.symm)
  exact ⟨t, t', hstep, hstep', ht.trans ht'.symm⟩

/-! ### The response over an internal step (R196) -/

/-- From `s` to `t` the response stays, or the command has completed. -/
def KeepsResponseOrCompletes (s t : State) : Prop := t.response = s.response ∨ t.phase = .idle

theorem KeepsResponseOrCompletes.of_response_eq {s u t : State} (hu : u.response = s.response)
    (h : KeepsResponseOrCompletes u t) : KeepsResponseOrCompletes s t :=
  h.imp_left fun ht => ht.trans hu

theorem memRead_response {a : Nat} {s s' : State} {b : Byte} (h : memRead a s = some (b, s')) :
    s'.response = s.response := by
  rw [memRead_frame h]
  rfl

theorem encPadOrDone_response (p : Bool) (s : State) : KeepsResponseOrCompletes s (encPadOrDone p s) := by
  unfold encPadOrDone
  split
  · exact .inl rfl
  · exact .inr rfl

theorem encTail_response (p : Bool) (s : State) : KeepsResponseOrCompletes s (encTail p s) := by
  refine (encPadOrDone_response p _).of_response_eq ?_
  split <;> rfl

theorem encPad_response (p : Bool) (s : State) : KeepsResponseOrCompletes s (encPad p s) :=
  (encPadOrDone_response p (s.emit padChar)).of_response_eq rfl

theorem decSetPayload_response (len : Nat) (s : State) : KeepsResponseOrCompletes s (decSetPayload len s) := by
  unfold decSetPayload
  split
  · exact .inr rfl
  · exact .inl rfl

theorem decEndPadRun_response (s : State) : KeepsResponseOrCompletes s (decEndPadRun s) := by
  unfold decEndPadRun
  split
  · exact .inr rfl
  · exact decSetPayload_response _ s

theorem decCountPad_response (c : Byte) (s : State) : KeepsResponseOrCompletes s (decCountPad c s) := by
  unfold decCountPad
  split
  · exact .inl rfl
  · exact decEndPadRun_response s

theorem decStart_response (p : Bool) (s : State) : KeepsResponseOrCompletes s (decStart p s) := by
  by_cases hlen : p = true → s.n % 8 = 0
  · rw [decStart_of_not_length hlen]
    exact .inl rfl
  · obtain ⟨rfl, hne⟩ := Classical.not_imp.mp hlen
    rw [decStart_of_length hne]
    exact .inr rfl

theorem startCommand_response (i : Instr) (s : State) : KeepsResponseOrCompletes s (startCommand i s) := by
  cases i with
  | enc p => exact .inl rfl
  | dec p => exact decStart_response p s

theorem decEmitByte_response (s : State) : (decEmitByte s).response = s.response := by
  unfold decEmitByte
  split <;> rfl

theorem decPutChar_response (c : Byte) (s : State) : KeepsResponseOrCompletes s (decPutChar c s) := by
  cases hrev : rev c with
  | none =>
    rw [decPutChar_of_rev_eq_none hrev]
    exact .inr rfl
  | some v =>
    simp only [decPutChar, hrev]
    exact .inl (decEmitByte_response _)

theorem encLoad_response {s t : State} (h : encLoad s = .next t) : KeepsResponseOrCompletes s t := by
  unfold encLoad at h
  split at h
  · cases h
  next hr =>
    cases h
    have hread := memRead_response hr
    exact .inl hread

theorem decStruct_response {p : Bool} {s t : State} (h : decStruct p s = .next t) : KeepsResponseOrCompletes s t := by
  unfold decStruct at h
  split at h
  · split at h
    · split at h
      · cases h
      next hr =>
        cases h
        exact (decCountPad_response _ _).of_response_eq (memRead_response hr)
    · cases h
      exact decEndPadRun_response s
  · cases h
    exact decSetPayload_response _ s

theorem decChar_response {s t : State} (h : decChar s = .next t) : KeepsResponseOrCompletes s t := by
  unfold decChar at h
  split at h
  · cases h
  next hr =>
    cases h
    exact (decPutChar_response _ _).of_response_eq (memRead_response hr)

/-- R196: an internal step changes the response only by completing. -/
theorem microStep_response {p : Bool} {s t : State} (h : microStep p s = .next t) : KeepsResponseOrCompletes s t := by
  unfold microStep at h
  split at h
  · cases h
    exact .inl rfl
  · exact encLoad_response h
  · cases h
    exact .inl rfl
  · cases h
    exact encTail_response p s
  · cases h
    exact encPad_response p s
  · exact decStruct_response h
  · exact decChar_response h
  · cases h
    exact .inr (decFinal_phase s)

/-! ### The response over a step of the machine (R196) -/

/-- From `s` to `t` the response stays, or the block has become IDLE and was running a command or had one to take. -/
def KeepsResponseOrAnswers (s t : State) : Prop :=
  t.response = s.response ∨ t.phase = .idle ∧ (s.phase ≠ .idle ∨ s.port ≠ none)

theorem blockStep_response {s t : State} (h : blockStep s = .next t) : KeepsResponseOrAnswers s t := by
  by_cases hidle : s.phase = .idle
  · obtain ⟨-, hin⟩ | ⟨c, hport, hin, -⟩ | ⟨c, i, hport, -, -, hin⟩ := intake_cases s <;>
      simp only [blockStep, hidle, hin, if_true] at h
    · cases h
      exact .inl rfl
    · cases h
      exact .inr ⟨rfl, .inr (by simp [hport])⟩
    · cases h
      exact (startCommand_response i _).imp id fun ht => ⟨ht, .inr (by simp [hport])⟩
  · rw [blockStep_of_busy hidle] at h
    exact (microStep_response h).imp id fun ht => ⟨ht, .inl hidle⟩

theorem runToIdle_phase {p : Bool} {f : Nat} {s t : State} (h : runToIdle p f s = .next t) : t.phase = .idle :=
  (runToIdle_induct (P := fun _ => True) (fun _ _ _ _ _ => trivial) trivial h).2

theorem exec_phase {i : Instr} {s t : State} (h : exec i s = .next t) : t.phase = .idle := by
  cases i with
  | enc p => exact runToIdle_phase h
  | dec p => exact runToIdle_phase h

theorem commandStep_response {s t : State} (h : commandStep s = .next t) : KeepsResponseOrAnswers s t := by
  by_cases hidle : s.phase = .idle
  · obtain ⟨-, hin⟩ | ⟨c, hport, hin, -⟩ | ⟨c, i, hport, -, -, hin⟩ := intake_cases s <;>
      simp only [commandStep, hidle, hin, if_true] at h
    · cases h
      exact .inl rfl
    · cases h
      exact .inr ⟨rfl, .inr (by simp [hport])⟩
    · exact .inr ⟨exec_phase h, .inr (by simp [hport])⟩
  · simp only [commandStep, hidle, if_false] at h
    exact .inr ⟨runToIdle_phase h, .inl hidle⟩

theorem presentStep_response {c : Command} {rest : List HostAction} {s t : State}
    (h : presentStep c rest s = .next t) : KeepsResponseOrAnswers s t := by
  unfold presentStep at h
  split at h
  · cases h
    exact .inl rfl
  · exact blockStep_response h

theorem disturb_response (offset : Nat) (s : State) : (s.disturb offset).response = s.response := by
  rw [State.disturb_eq]
  rfl

/-- R190, R196: of the host's actions only reset changes the response where no command is answered. -/
theorem hostStep_response {a : HostAction} {rest : List HostAction} {s t : State} (h : hostStep a rest s = .next t) :
    KeepsResponseOrAnswers s t ∨ t.phase = .idle ∧ a = .reset := by
  cases a with
  | present c => exact .inl (presentStep_response h)
  | pulse => exact .inl (blockStep_response (s := { s with hostActions := rest }) h)
  | disturb offset =>
    cases h
    exact .inl (.inl (disturb_response offset { s with hostActions := rest }))
  | reset =>
    cases h
    exact .inr ⟨rfl, rfl⟩

/-- Everything a step can do to the response. -/
theorem step_response {s t : State} (h : step s = .next t) :
    t.response = s.response ∨
      t.phase = .idle ∧ (s.phase ≠ .idle ∨ s.port ≠ none ∨ s.hostActions.head? = some .reset) := by
  have hcases : KeepsResponseOrAnswers s t ∨ t.phase = .idle ∧ s.hostActions.head? = some .reset := by
    simp only [step, nextStep] at h
    split at h
    · exact .inl (commandStep_response h)
    next hacts =>
      rw [hacts]
      exact (hostStep_response h).imp_right fun ⟨ht, ha⟩ => ⟨ht, congrArg some ha⟩
  obtain (hkept | ⟨ht, hcause⟩) | ⟨ht, hreset⟩ := hcases
  · exact .inl hkept
  · exact .inr ⟨ht, hcause.imp_right .inl⟩
  · exact .inr ⟨ht, .inr (.inr hreset)⟩

/-- Settles O19: both clauses say that a step that does not keep the response leaves the block IDLE. -/
theorem responseChangesOnlyAtCompletion : Obligations.ResponseChangesOnlyAtCompletion := fun _ _ h =>
  ⟨fun hb => (step_response h).resolve_right fun hdone => hb hdone.1, fun hne => (step_response h).resolve_left hne⟩

end Sys2Proof

/-! The internal step by cases: of a running command, with the read of IN it makes written out (R22, R41), and of the
block (R185, R194 of 70_reset_and_hazards.md). What follows from it for the port and for IN; then the machine's step on
an IDLE block and at reset (R190, R191). -/

namespace Sys2Proof

open Machine Spec

/-! ### An internal step of a running command, by cases -/

theorem exists_read_of_encLoad {s t : State} (h : encLoad s = .next t) :
    ∃ b d, memRead s.i s = some (b, { s with draws := d }) ∧ t = encPutByte b { s with draws := d } := by
  unfold encLoad at h
  split at h
  · cases h
  next b s' hr =>
    cases h
    have hs' := memRead_frame hr
    exact ⟨b, s'.draws, hs' ▸ hr, hs' ▸ rfl⟩

theorem exists_read_of_decChar {s t : State} (h : decChar s = .next t) :
    ∃ c d, memRead s.i s = some (c, { s with draws := d }) ∧ t = decPutChar c { s with draws := d } := by
  unfold decChar at h
  split at h
  · cases h
  next c s' hr =>
    cases h
    have hs' := memRead_frame hr
    exact ⟨c, s'.draws, hs' ▸ hr, hs' ▸ rfl⟩

/-- Everything a step of D_STRUCT can be (R132, R134). -/
inductive StructMove (p : Bool) (s t : State) : Prop
  | reads (c : Byte) (d : Nat) (policy : p = true) (more : s.t.toNat < 8 ∧ s.t.toNat < s.n)
      (read : memRead (s.n - 1 - s.t.toNat) s = some (c, { s with draws := d }))
      (eq : t = decCountPad c { s with draws := d })
  | ends (policy : p = true) (all : ¬ (s.t.toNat < 8 ∧ s.t.toNat < s.n)) (eq : t = decEndPadRun s)
  | strips (policy : p = false) (eq : t = decSetPayload s.n s)

theorem structMove_of_decStruct {p : Bool} {s t : State} (h : decStruct p s = .next t) : StructMove p s t := by
  unfold decStruct at h
  split at h
  next hp =>
    split at h
    next hmore =>
      split at h
      · cases h
      next c s' hr =>
        cases h
        have hs' := memRead_frame hr
        exact .reads c s'.draws hp hmore (hs' ▸ hr) (hs' ▸ rfl)
    next hall =>
      cases h
      exact .ends hp hall rfl
  next hp =>
    cases h
    exact .strips (Bool.not_eq_true p ▸ hp) rfl

/-- Everything an internal step of a command can be. -/
inductive MicroMove (p : Bool) (s t : State) : Prop
  | idle (phase : s.phase = .idle) (eq : t = s)
  | load (b : Byte) (d : Nat) (phase : s.phase = .eLoad) (read : memRead s.i s = some (b, { s with draws := d }))
      (eq : t = encPutByte b { s with draws := d })
  | emit (phase : s.phase = .eEmit) (eq : t = encEmit s)
  | tail (phase : s.phase = .eTail) (eq : t = encTail p s)
  | pad (phase : s.phase = .ePad) (eq : t = encPad p s)
  | struct (phase : s.phase = .dStruct) (move : StructMove p s t)
  | char (c : Byte) (d : Nat) (phase : s.phase = .dChar) (read : memRead s.i s = some (c, { s with draws := d }))
      (eq : t = decPutChar c { s with draws := d })
  | final (phase : s.phase = .dFinal) (eq : t = decFinal s)

theorem microMove_of_microStep {p : Bool} {s t : State} (h : microStep p s = .next t) : MicroMove p s t := by
  unfold microStep at h
  split at h
  next hph => exact .idle hph (Host.Outcome.next.inj h).symm
  next hph =>
    obtain ⟨b, d, hread, ht⟩ := exists_read_of_encLoad h
    exact .load b d hph hread ht
  next hph => exact .emit hph (Host.Outcome.next.inj h).symm
  next hph => exact .tail hph (Host.Outcome.next.inj h).symm
  next hph => exact .pad hph (Host.Outcome.next.inj h).symm
  next hph => exact .struct hph (structMove_of_decStruct h)
  next hph =>
    obtain ⟨c, d, hread, ht⟩ := exists_read_of_decChar h
    exact .char c d hph hread ht
  next hph => exact .final hph (Host.Outcome.next.inj h).symm

/-! ### An internal step of the block, by cases -/

/-- Everything an internal step of the block can be. -/
inductive BlockMove (s t : State) : Prop
  | runs (busy : s.phase ≠ .idle) (move : microStep s.policy s = .next t)
  | waits (idle : s.phase = .idle) (port : s.port = none) (eq : t = s)
  | refuses (c : Command) (idle : s.phase = .idle) (port : s.port = some c)
      (eq : t = (s.latch c).fail statusBadCommand)
  | accepts (c : Command) (i : Instr) (idle : s.phase = .idle) (port : s.port = some c)
      (word : decodeWord c.cmd = .ok i) (fits : s.cfg.accepts c.n = true)
      (eq : t = startCommand i ((s.latch c).bindInput c))

theorem blockMove_of_blockStep {s t : State} (h : blockStep s = .next t) : BlockMove s t := by
  by_cases hidle : s.phase = .idle
  · obtain ⟨hport, hin⟩ | ⟨c, hport, hin, -⟩ | ⟨c, i, hport, hdec, hacc, hin⟩ := intake_cases s <;>
      simp only [blockStep, hidle, hin, if_true] at h <;> cases h
    · exact .waits hidle hport rfl
    · exact .refuses c hidle hport rfl
    · exact .accepts c i hidle hport hdec hacc rfl
  · exact .runs hidle ((blockStep_of_busy hidle).symm.trans h)

/-- An internal step of a busy block keeps the command and everything outside the block. -/
theorem blockStep_same {s t : State} (hb : s.phase ≠ .idle) (h : blockStep s = .next t) : SameCommand s t :=
  microStep_same ((blockStep_of_busy hb).symm.trans h)

/-- What every internal step of the block keeps holds after any number of them. -/
theorem blockSteps_induct {P : State → Prop} (hstep : ∀ s t, P s → blockStep s = .next t → P t) {k : Nat} {s t : State}
    (hs : P s) (h : blockSteps k s = .next t) : P t := by
  induction k generalizing s with
  | zero =>
    cases h
    exact hs
  | succ k ih =>
    unfold blockSteps at h
    split at h
    next u hu => exact ih (hstep s u hs hu) h
    next => cases h
    next => cases h

theorem blockStep_hostActions {s t : State} (h : blockStep s = .next t) : t.hostActions = s.hostActions := by
  cases blockMove_of_blockStep h with
  | runs hb hm => exact (microStep_same hm).hostActions
  | waits _ _ heq => rw [heq]
  | refuses c _ _ heq => rw [heq]; rfl
  | accepts c i _ _ _ _ heq =>
    rw [heq]
    exact (startCommand_same i _).hostActions

/-! ### The port and IN -/

/-- Settles O21: the port is outside the running command. -/
theorem busyBlockHoldsThePort : Obligations.BusyBlockHoldsThePort := fun _ _ hb h => (blockStep_same hb h).port

/-- Settles O23: no internal step writes IN. -/
theorem blockNeverWritesInput : Obligations.BlockNeverWritesInput := fun _ _ hb h => (blockStep_same hb h).input

/-- Settles O22: the step is an internal step of the block, which holds the port while busy and takes `d` when IDLE. -/
theorem secondCommandWaitsForThePort : Obligations.SecondCommandWaitsForThePort := by
  intro s t c d rest hacts hport hstep
  have hblock : blockStep s = .next t := by simpa [step, nextStep, hacts, hostStep, presentStep, hport] using hstep
  refine ⟨(blockStep_hostActions hblock).trans hacts, ?_⟩
  cases blockMove_of_blockStep hblock with
  | runs _ hm => exact .inl ((microStep_same hm).port.trans hport)
  | waits _ hnone => simp [hport] at hnone
  | refuses c' _ hport' heq =>
    obtain rfl := Option.some_inj.mp (hport.symm.trans hport')
    exact .inr (by rw [heq]; exact ⟨rfl, rfl, rfl⟩)
  | accepts c' i _ hport' _ _ heq =>
    obtain rfl := Option.some_inj.mp (hport.symm.trans hport')
    have hsame := startCommand_same i ((s.latch d).bindInput d)
    exact .inr (by rw [heq]; exact ⟨hsame.port, hsame.cmd, hsame.n⟩)

/-! ### The machine's step: waiting, accepting, reset -/

/-- Settles O13: with no host action pending the step is the command-level one, which waits. -/
theorem idleBlockWaits : Obligations.IdleBlockWaits := by
  intro s hidle hacts hport
  simp [step, nextStep, hacts, commandStep_waits hidle hport]

/-- Settles O1: the reset values of R34. -/
theorem resetStateIsIdleWithNoResponse : Obligations.ResetStateIsIdleWithNoResponse := ⟨rfl, rfl⟩

/-- Settles O2: the step resets the block, which then waits. -/
theorem resetAbandonsRunningCommand : Obligations.ResetAbandonsRunningCommand := by
  intro s rest hacts
  refine ⟨{ s with hostActions := rest }.resetBlock, by simp [step, nextStep, hacts, hostStep], rfl, rfl, rfl, rfl, ?_⟩
  exact fun hrest hport => idleBlockWaits _ rfl hrest hport

theorem accepts_of_forall_le {cfg : Config} {n : Nat} (h : ∀ m, cfg.nMax = some m → n ≤ m) : cfg.accepts n = true := by
  unfold Config.accepts
  split
  next => rfl
  next m hmax => exact decide_eq_true (h m hmax)

/-- Settles O10: the command is accepted, and the latched state is the one written out. -/
theorem stepRunsTheCommandAtThePort : Obligations.StepRunsTheCommandAtThePort := fun _ _ _ hpres hdec hmax =>
  step_of_presented hpres hdec (accepts_of_forall_le hmax)

theorem decodeWord_of_decodeTableWord {w : Nat} {i : Instr} (h : decodeTableWord 8 w = some i) :
    decodeWord (BitVec.ofNat 8 w) = .ok i := by
  simp only [decodeTableWord, decode] at h
  split at h
  next =>
    cases hw : decodeWord (BitVec.ofNat 8 w) with
    | error e => simp [hw] at h
    | ok j => simpa [hw] using h
  next => cases h

/-- Settles O11: the placed word is presented with no input, which every N_MAX accepts. -/
theorem stepRunsThePlacedWord : Obligations.StepRunsThePlacedWord := fun s w _ h =>
  step_of_presented (s := s.withFetchWord 8 w) (c := ⟨BitVec.ofNat 8 w, []⟩) ⟨rfl, rfl, rfl⟩
    (decodeWord_of_decodeTableWord h) (accepts_of_forall_le fun m _ => Nat.zero_le m)

/-! ### The command words (R61, R63) -/

/-- Settles O7: a command's one byte is its word. -/
theorem decodeOfEncodeIsTheCommand : Obligations.DecodeOfEncodeIsTheCommand := by
  intro i rest _
  simp [encode, decode]

/-- Settles O9: eight closed words. -/
theorem tableWordsDecode : Obligations.TableWordsDecode := by
  unfold Obligations.TableWordsDecode
  decide

end Sys2Proof

/-! The work registers while a command runs (R24 to R26 of 10_state.md, R102 to R107 of 41_encode.md, R131 to R141 of
42_decode.md): how I, K, L and NB stand to each other between internal steps, whatever bytes are read; and the bounds of
R24 and R198 that follow. -/

namespace Sys2Proof

open Machine Spec

/-! ### ENCODE -/

/-- What relates ENCODE's registers: in the two loops and before the tail, in the padding, and at completion. -/
inductive EncRegs (p : Bool) (s : State) : Prop
  | loop (phase : s.phase = encNextPhase s) (bits : s.encBits) (fill : s.nb.toNat ≤ 12) (le : s.i ≤ s.n)
  | pad (phase : s.phase = .ePad) (policy : p = true) (nb : s.nb = 0#4) (read : s.i = s.n)
      (ge : charCount s.n ≤ s.k) (lt : s.k < 8 * ((s.n + 4) / 5)) (more : s.k % 8 ≠ 0)
  | done (phase : s.phase = .idle) (nb : s.nb = 0#4) (read : s.i = s.n) (le : s.k ≤ 8 * ((s.n + 4) / 5))
      (count : s.outLen = s.k)

theorem encRegs_encStart (p : Bool) (s : State) : EncRegs p (encStart s) :=
  .loop rfl rfl (Nat.zero_le 12) (Nat.zero_le s.n)

/-- R104. -/
theorem encRegs_encPutByte (p : Bool) (b : Byte) {s : State} (hbits : s.encBits) (hnb : s.nb.toNat ≤ 4)
    (hlt : s.i < s.n) : EncRegs p (encPutByte b s) := by
  have hadd := counter_add8 hnb
  refine .loop rfl ?_ ?_ hlt
  · show 8 * (s.i + 1) = 5 * s.k + (s.nb + 8#4).toNat
    omega
  · show (s.nb + 8#4).toNat ≤ 12
    omega

/-- R105. -/
theorem encRegs_encEmit (p : Bool) {s : State} (hbits : s.encBits) (hge : 5 ≤ s.nb.toNat) (hfill : s.nb.toNat ≤ 12)
    (hle : s.i ≤ s.n) : EncRegs p (encEmit s) := by
  have hsub := counter_sub5 hge
  refine .loop rfl ?_ ?_ hle
  · show 8 * s.i = 5 * (s.k + 1) + (s.nb - 5#4).toNat
    omega
  · show (s.nb - 5#4).toNat ≤ 12
    omega

/-- R107's test, with all characters of the input out. -/
theorem encRegs_encPadOrDone {p : Bool} {s : State} (hnb : s.nb = 0#4) (hread : s.i = s.n) (hge : charCount s.n ≤ s.k)
    (hle : s.k ≤ 8 * ((s.n + 4) / 5)) : EncRegs p (encPadOrDone p s) := by
  unfold encPadOrDone
  split
  next h =>
    have hmore := h.2
    exact .pad rfl h.1 hnb hread hge (show s.k < 8 * ((s.n + 4) / 5) by omega) hmore
  next h => exact .done rfl hnb hread hle rfl

/-- R106. -/
theorem encRegs_encTail (p : Bool) {s : State} (hbits : s.encBits) (hnb : s.nb.toNat ≤ 4) (hread : s.i = s.n) :
    EncRegs p (encTail p s) := by
  unfold encTail
  split
  next hpos =>
    refine encRegs_encPadOrDone rfl hread ?_ ?_
    · show (8 * s.n + 4) / 5 ≤ s.k + 1
      omega
    · show s.k + 1 ≤ 8 * ((s.n + 4) / 5)
      omega
  next hpos =>
    have hzero : s.nb.toNat = 0 := Nat.eq_zero_of_not_pos hpos
    refine encRegs_encPadOrDone (BitVec.eq_of_toNat_eq hzero) hread ?_ ?_
    · unfold charCount
      omega
    · omega

/-- Every internal step keeps the relations. -/
theorem EncRegs.step {p : Bool} {s t : State} (h : EncRegs p s) (hm : microStep p s = .next t) : EncRegs p t := by
  cases h with
  | loop hph hbits hfill hle =>
    obtain ⟨hnext, hnb⟩ | ⟨hnext, hnb, hlt⟩ | ⟨hnext, hnb, hge⟩ := encNextPhase_cases s <;>
      simp only [microStep, hph, hnext] at hm
    · cases hm
      exact encRegs_encEmit p hbits hnb hfill hle
    · obtain ⟨b, d, -, rfl⟩ := exists_read_of_encLoad hm
      exact encRegs_encPutByte p b (s := { s with draws := d }) hbits hnb hlt
    · cases hm
      exact encRegs_encTail p hbits hnb (le_antisymm hle hge)
  | pad hph hp hnb hread hge hlt hmore =>
    simp only [microStep, hph] at hm
    cases hm
    exact encRegs_encPadOrDone (s := s.emit padChar) hnb hread (Nat.le_succ_of_le hge) hlt
  | done hph hnb hread hle hcount =>
    simp only [microStep, hph] at hm
    cases hm
    exact .done hph hnb hread hle hcount

/-- R24 for ENCODE. -/
theorem EncRegs.k_le {p : Bool} {s : State} (h : EncRegs p s) : s.k ≤ 8 * ((s.n + 4) / 5) := by
  cases h with
  | loop _ hbits _ hle => omega
  | pad _ _ _ _ _ hlt => exact hlt.le
  | done _ _ _ hle => exact hle

/-! ### DECODE -/

/-- What relates DECODE's registers: in phase 1, in the character loop and after it, and at completion. -/
inductive DecRegs (p : Bool) (s : State) : Prop
  | count (phase : s.phase = .dStruct) (read : s.i = 0) (staged : s.k = 0) (nb : s.nb = 0#4)
      (run : p = true → s.n % 8 = 0 ∧ s.t.toNat ≤ s.n)
  | loop (phase : s.phase = decNextPhase s) (bits : s.decBits) (fill : s.nb.toNat ≤ 7) (le : s.i ≤ s.l)
      (payload : s.l ≤ s.n) (rem : forbiddenRemainder s.l = false)
  | done (phase : s.phase = .idle) (fill : s.nb.toNat ≤ 7) (le : s.k ≤ 5 * s.n / 8)
      (count : s.status = statusOk → s.outLen = s.k)

/-- A failed DECODE. -/
theorem decRegs_fail (p : Bool) {s : State} (hfill : s.nb.toNat ≤ 7) (hle : s.k ≤ 5 * s.n / 8) :
    DecRegs p (s.fail statusInvalidEncoding) :=
  .done rfl hfill hle fun h => absurd (show statusInvalidEncoding = statusOk from h) (by decide)

/-- R131. -/
theorem decRegs_decStart (p : Bool) (s : State) : DecRegs p (decStart p s) := by
  by_cases hlen : p = true → s.n % 8 = 0
  · rw [decStart_of_not_length hlen]
    refine .count rfl rfl rfl rfl ?_
    rintro rfl
    exact ⟨hlen rfl, Nat.zero_le _⟩
  · obtain ⟨rfl, hne⟩ := Classical.not_imp.mp hlen
    rw [decStart_of_length hne]
    exact decRegs_fail true (Nat.zero_le 7) (Nat.zero_le _)

/-- R133 to R135, with nothing read or staged yet. -/
theorem decRegs_decSetPayload (p : Bool) {len : Nat} {s : State} (hread : s.i = 0) (hk : s.k = 0) (hnb : s.nb = 0#4)
    (hlen : len ≤ s.n) : DecRegs p (decSetPayload len s) := by
  have hfill : s.nb.toNat ≤ 7 := by simp [hnb]
  cases hrem : forbiddenRemainder len with
  | true =>
    rw [decSetPayload_of_forbidden hrem]
    exact decRegs_fail p (s := { s with l := len }) hfill (by simp [hk])
  | false =>
    rw [decSetPayload_of_not_forbidden hrem]
    exact .loop rfl (by simp [State.decBits, hread, hk, hnb]) hfill (by simp [hread]) hlen hrem

/-- R132. -/
theorem decRegs_decEndPadRun (p : Bool) {s : State} (hread : s.i = 0) (hk : s.k = 0) (hnb : s.nb = 0#4) :
    DecRegs p (decEndPadRun s) := by
  unfold decEndPadRun
  split
  · exact decRegs_fail p (by simp [hnb]) (by simp [hk])
  · exact decRegs_decSetPayload p hread hk hnb (Nat.sub_le _ _)

/-- R132: a '=' more, or the end of the count. -/
theorem decRegs_decCountPad {p : Bool} (c : Byte) {s : State} (hph : s.phase = .dStruct) (hread : s.i = 0) (hk : s.k = 0)
    (hnb : s.nb = 0#4) (hmul : p = true → s.n % 8 = 0) (ht : s.t.toNat < 8 ∧ s.t.toNat < s.n) :
    DecRegs p (decCountPad c s) := by
  unfold decCountPad
  split
  · refine .count hph hread hk hnb fun hp => ⟨hmul hp, ?_⟩
    show (s.t + 1#4).toNat ≤ s.n
    rw [counter_add1 ht.1]
    exact ht.2
  · exact decRegs_decEndPadRun p hread hk hnb

/-- R137 to R140. -/
theorem decRegs_decPutChar (p : Bool) (c : Byte) {s : State} (hbits : s.decBits) (hfill : s.nb.toNat ≤ 7)
    (hlt : s.i < s.l) (hl : s.l ≤ s.n) (hrem : forbiddenRemainder s.l = false) : DecRegs p (decPutChar c s) := by
  have hadd := counter_add5 hfill
  cases hv : rev c with
  | none =>
    rw [decPutChar_of_rev_eq_none hv]
    exact decRegs_fail p (s := { s with i := s.i + 1 }) hfill (by show s.k ≤ 5 * s.n / 8; omega)
  | some v =>
    obtain hlt8 | hge8 := lt_or_ge (s.nb.toNat + 5) 8
    · rw [decPutChar_of_lt hv hlt8]
      refine .loop rfl ?_ ?_ hlt hl hrem
      · show 5 * (s.i + 1) = 8 * s.k + (s.nb + 5#4).toNat
        omega
      · show (s.nb + 5#4).toNat ≤ 7
        omega
    · have hsub := counter_sub8 (c := s.nb + 5#4) (by omega)
      rw [decPutChar_of_ge hv hfill hge8]
      refine .loop rfl ?_ ?_ hlt hl hrem
      · show 5 * (s.i + 1) = 8 * (s.k + 1) + (s.nb + 5#4 - 8#4).toNat
        omega
      · show (s.nb + 5#4 - 8#4).toNat ≤ 7
        omega

/-- R141. -/
theorem decRegs_decFinal (p : Bool) {s : State} (hfill : s.nb.toNat ≤ 7) (hle : s.k ≤ 5 * s.n / 8) :
    DecRegs p (decFinal s) := by
  unfold decFinal
  split
  · exact decRegs_fail p hfill hle
  · exact .done rfl hfill hle fun _ => rfl

/-- Every internal step keeps the relations. -/
theorem DecRegs.step {p : Bool} {s t : State} (h : DecRegs p s) (hm : microStep p s = .next t) : DecRegs p t := by
  cases h with
  | count hph hread hk hnb hrun =>
    simp only [microStep, hph] at hm
    cases structMove_of_decStruct hm with
    | reads c d hp hmore _ heq =>
      exact heq ▸ decRegs_decCountPad c (s := { s with draws := d }) hph hread hk hnb (fun hp => (hrun hp).1) hmore
    | ends _ _ heq => exact heq ▸ decRegs_decEndPadRun p hread hk hnb
    | strips _ heq => exact heq ▸ decRegs_decSetPayload p hread hk hnb le_rfl
  | loop hph hbits hfill hle hl hrem =>
    obtain ⟨hnext, hlt⟩ | ⟨hnext, -⟩ := decNextPhase_cases s <;> simp only [microStep, hph, hnext] at hm
    · obtain ⟨c, d, -, rfl⟩ := exists_read_of_decChar hm
      exact decRegs_decPutChar p c (s := { s with draws := d }) hbits hfill hlt hl hrem
    · cases hm
      exact decRegs_decFinal p hfill (by omega)
  | done hph hfill hle hcount =>
    simp only [microStep, hph] at hm
    cases hm
    exact .done hph hfill hle hcount

/-- R24 for DECODE. -/
theorem DecRegs.k_le {p : Bool} {s : State} (h : DecRegs p s) : s.k ≤ 5 * s.n / 8 := by
  cases h with
  | count _ _ hk => exact hk.trans_le (Nat.zero_le _)
  | loop _ hbits _ hle hl => omega
  | done _ _ hle => exact hle

/-! ### Either command (R24) -/

/-- The relations of the command that runs. -/
def InstrRegs (i : Instr) (s : State) : Prop :=
  match i with
  | .enc p => EncRegs p s
  | .dec p => DecRegs p s

/-- P of a command (R62). -/
def instrPolicy (i : Instr) : Bool :=
  match i with
  | .enc p => p
  | .dec p => p

theorem instrRegs_startCommand (i : Instr) (s : State) : InstrRegs i (startCommand i s) := by
  cases i with
  | enc p => exact encRegs_encStart p s
  | dec p => exact decRegs_decStart p s

theorem InstrRegs.step {i : Instr} {s t : State} (h : InstrRegs i s) (hm : microStep (instrPolicy i) s = .next t) :
    InstrRegs i t := by
  cases i with
  | enc p => exact EncRegs.step h hm
  | dec p => exact DecRegs.step h hm

theorem policy_of_decodeWord {s : State} {i : Instr} (h : decodeWord s.cmd = .ok i) : s.policy = instrPolicy i := by
  cases i with
  | enc p => exact (decodeWord_eq_ok_enc_iff.mp h).2.2.symm
  | dec p => exact (decodeWord_eq_ok_dec_iff.mp h).2.2.symm

/-- From its acceptance on, with nothing else at the port: the command `i` on an input of length `n` runs or has
completed. -/
structure Accepted (i : Instr) (n : Nat) (s : State) : Prop where
  word : decodeWord s.cmd = .ok i
  len : s.n = n
  port : s.port = none
  regs : InstrRegs i s

theorem accepted_startCommand {i : Instr} {s : State} {c : Command} (h : decodeWord c.cmd = .ok i) :
    Accepted i c.n (startCommand i ((s.latch c).bindInput c)) := by
  have hsame := startCommand_same i ((s.latch c).bindInput c)
  exact ⟨hsame.cmd ▸ h, hsame.n, hsame.port, instrRegs_startCommand i _⟩

theorem Accepted.blockStep {i : Instr} {n : Nat} {s t : State} (h : Accepted i n s) (hstep : blockStep s = .next t) :
    Accepted i n t := by
  obtain ⟨hword, hlen, hport, hregs⟩ := h
  cases blockMove_of_blockStep hstep with
  | runs _ hm =>
    have hsame := microStep_same hm
    exact ⟨hsame.cmd ▸ hword, hsame.n.trans hlen, hsame.port.trans hport, hregs.step (policy_of_decodeWord hword ▸ hm)⟩
  | waits _ _ heq => exact heq ▸ ⟨hword, hlen, hport, hregs⟩
  | refuses c _ hc => simp [hport] at hc
  | accepts c i _ hc => simp [hport] at hc

/-- Settles O6: acceptance is the first step, and K is bounded by what relates it to the other registers. -/
theorem outputCountIsBounded : Obligations.OutputCountIsBounded := by
  intro s t c i k hpres hdec hacc hsteps
  have hstart : blockStep s = .next (startCommand i ((s.latch c).bindInput c)) := by
    simp [blockStep, hpres.1, intake, hpres.2.2, hdec, hacc]
  rw [blockSteps_succ hstart] at hsteps
  obtain ⟨-, hlen, -, hregs⟩ :=
    blockSteps_induct (fun _ _ h hstep => h.blockStep hstep) (accepted_startCommand hdec) hsteps
  rw [← hlen]
  cases i with
  | enc p => exact EncRegs.k_le hregs
  | dec p => exact DecRegs.k_le hregs

end Sys2Proof

/-! The output of an internal step (R24, R42, R175, R176): what it stages, and what it writes to the response when it
completes the command; and the input offset it reads (R25). -/

namespace Sys2Proof

open Machine Spec

/-! ### What an internal step stages -/

/-- From `s` to `u` nothing is staged, or one byte at offset K. -/
def Stages (s u : State) : Prop :=
  (u.staging = s.staging ∧ u.k = s.k) ∨ ∃ v, u.staging = s.staging.write s.k v ∧ u.k = s.k + 1

theorem Stages.refl (s : State) : Stages s s := .inl ⟨rfl, rfl⟩

theorem stages_emit (v : Byte) (s : State) : Stages s (s.emit v) := .inr ⟨v, rfl, rfl⟩

/-- The staged offsets stay 0..K-1. -/
theorem Stages.offsets {s u : State} (h : Stages s u) (hs : s.staging.map Prod.fst = List.range s.k) :
    u.staging.map Prod.fst = List.range u.k := by
  obtain ⟨hst, hk⟩ | ⟨v, hst, hk⟩ := h
  · rw [hst, hk, hs]
  · rw [hst, hk, Memory.offsets_write v hs]

theorem Stages.k_le {s u : State} (h : Stages s u) : s.k ≤ u.k := by
  obtain ⟨-, hk⟩ | ⟨v, -, hk⟩ := h <;> omega

/-- The bytes staged before come first. -/
theorem Stages.take_slice {s u : State} (h : Stages s u) (hs : s.staging.map Prod.fst = List.range s.k) :
    (u.staging.slice u.k).take s.k = s.staging.slice s.k := by
  have hlen := Memory.slice_length hs
  obtain ⟨hst, hk⟩ | ⟨v, hst, hk⟩ := h
  · rw [hst, hk, List.take_of_length_le hlen.le]
  · rw [hst, hk, Memory.slice_write, List.take_left' hlen]

/-- The slice of a space with offsets 0..k-1 is its bytes in order. -/
theorem slice_eq_map_snd {m : Memory} {k : Nat} (h : m.map Prod.fst = List.range k) : m.slice k = m.map Prod.snd := by
  induction k generalizing m with
  | zero =>
    obtain rfl : m = [] := by simpa using h
    rfl
  | succ k ih =>
    obtain rfl | ⟨m', ⟨x, v⟩, rfl⟩ := m.eq_nil_or_concat
    · simp at h
    · rw [List.concat_eq_append, List.map_append, List.range_succ] at h
      obtain ⟨hm', hx⟩ := List.append_inj' h rfl
      obtain rfl : x = k := by simpa using hx
      rw [List.concat_eq_append, ← Memory.write_at_count v hm', Memory.slice_write, ih hm', Memory.write_at_count v hm',
        List.map_append]
      rfl

/-! ### The completions -/

/-- What an internal step of a busy block does on the output side: the command goes on, or it completes OK after staging
what the step emits, or it fails. -/
inductive OutputMove (s t : State) : Prop
  | runs (stages : Stages s t) (busy : t.phase ≠ .idle)
  | completes (u : State) (stages : Stages s u) (eq : t = u.completeOk)
  | fails (u : State) (eq : t = u.fail statusInvalidEncoding)

theorem encNextPhase_ne_idle (s : State) : encNextPhase s ≠ .idle := by
  obtain ⟨h, _⟩ | ⟨h, _⟩ | ⟨h, _⟩ := encNextPhase_cases s <;> simp [h]

theorem decNextPhase_ne_idle (s : State) : decNextPhase s ≠ .idle := by
  obtain ⟨h, _⟩ | ⟨h, _⟩ := decNextPhase_cases s <;> simp [h]

theorem outputMove_encPadOrDone (p : Bool) {s u : State} (h : Stages s u) : OutputMove s (encPadOrDone p u) := by
  unfold encPadOrDone
  split
  · exact .runs h nofun
  · exact .completes u h rfl

theorem outputMove_encTail (p : Bool) (s : State) : OutputMove s (encTail p s) := by
  refine outputMove_encPadOrDone p ?_
  split
  · exact stages_emit _ s
  · exact .refl s

theorem outputMove_decSetPayload (len : Nat) {s u : State} (h : Stages s u) : OutputMove s (decSetPayload len u) := by
  unfold decSetPayload
  split
  · exact .fails _ rfl
  · exact .runs h (decNextPhase_ne_idle _)

theorem outputMove_decEndPadRun {s u : State} (h : Stages s u) : OutputMove s (decEndPadRun u) := by
  unfold decEndPadRun
  split
  · exact .fails _ rfl
  · exact outputMove_decSetPayload _ h

theorem outputMove_decCountPad (c : Byte) {s u : State} (h : Stages s u) (hb : u.phase ≠ .idle) :
    OutputMove s (decCountPad c u) := by
  unfold decCountPad
  split
  · exact .runs h hb
  · exact outputMove_decEndPadRun h

theorem stages_decEmitByte (s : State) : Stages s (decEmitByte s) := by
  unfold decEmitByte
  split
  · exact stages_emit _ s
  · exact .refl s

theorem outputMove_decPutChar (c : Byte) (s : State) : OutputMove s (decPutChar c s) := by
  cases hrev : rev c with
  | none =>
    rw [decPutChar_of_rev_eq_none hrev]
    exact .fails _ rfl
  | some v =>
    simp only [decPutChar, hrev]
    exact .runs (stages_decEmitByte { s with i := s.i + 1, acc := accPutDigit s.acc v, nb := s.nb + 5#4 })
      (decNextPhase_ne_idle _)

theorem outputMove_decFinal (s : State) : OutputMove s (decFinal s) := by
  unfold decFinal
  split
  · exact .fails s rfl
  · exact .completes s (.refl s) rfl

theorem OutputMove.of_draws {s t : State} {d : Nat} (h : OutputMove { s with draws := d } t) : OutputMove s t := by
  cases h with
  | runs hst hb => exact .runs hst hb
  | completes u hst heq => exact .completes u hst heq
  | fails u heq => exact .fails u heq

/-- R42, R175, R176 over any internal step of a busy block. -/
theorem outputMove_of_microStep {p : Bool} {s t : State} (hb : s.phase ≠ .idle) (h : microStep p s = .next t) :
    OutputMove s t := by
  cases microMove_of_microStep h with
  | idle hph => exact absurd hph hb
  | load b d _ _ heq => exact heq ▸ .runs (.inl ⟨rfl, rfl⟩) (encNextPhase_ne_idle _)
  | emit _ heq => exact heq ▸ .runs (stages_emit _ s) (encNextPhase_ne_idle _)
  | tail _ heq => exact heq ▸ outputMove_encTail p s
  | pad _ heq => exact heq ▸ outputMove_encPadOrDone p (stages_emit padChar s)
  | struct _ hmove =>
    cases hmove with
    | reads c d _ _ _ heq => exact heq ▸ outputMove_decCountPad c (u := { s with draws := d }) (.inl ⟨rfl, rfl⟩) hb
    | ends _ _ heq => exact heq ▸ outputMove_decEndPadRun (.refl s)
    | strips _ heq => exact heq ▸ outputMove_decSetPayload _ (.refl s)
  | char c d _ _ heq => exact heq ▸ (outputMove_decPutChar c { s with draws := d }).of_draws
  | final _ heq => exact heq ▸ outputMove_decFinal s

theorem outputMove_of_blockStep {s t : State} (hb : s.phase ≠ .idle) (h : blockStep s = .next t) : OutputMove s t :=
  outputMove_of_microStep hb ((blockStep_of_busy hb).symm.trans h)

/-! ### From a sound state -/

theorem Machine.State.Inv.offsets {s : State} (h : s.Inv) (hb : s.phase ≠ .idle) :
    s.staging.map Prod.fst = List.range s.k := by
  have hst := h.staging
  rwa [State.stagingInv, if_neg hb] at hst

/-- Settles O24: a write at offset K goes to the end. -/
theorem outputIsStagedInOrder : Obligations.OutputIsStagedInOrder := by
  intro s t hinv hb hstep hbt
  cases outputMove_of_blockStep hb hstep with
  | runs hst =>
    obtain hkept | ⟨v, hst, hk⟩ := hst
    · exact .inl hkept
    · exact .inr ⟨v, by rw [hst, Memory.write_at_count v (hinv.offsets hb)], hk⟩
  | completes u _ heq => exact absurd (heq ▸ rfl) hbt
  | fails u heq => exact absurd (heq ▸ rfl) hbt

/-- Settles O20: the K bytes of the response are the slice of what is staged, which begins with what was. -/
theorem completionCommitsTheStagedBytes : Obligations.CompletionCommitsTheStagedBytes := by
  intro s t hinv hb hstep hidle
  have hoff := hinv.offsets hb
  cases outputMove_of_blockStep hb hstep with
  | runs _ hbt => exact absurd hidle hbt
  | completes u hst heq =>
    subst heq
    refine .inl ⟨rfl, rfl, Memory.slice_length (hst.offsets hoff), hst.k_le, ?_⟩
    rw [State.completeOk_out, hst.take_slice hoff, slice_eq_map_snd hoff]
  | fails u heq =>
    subst heq
    exact .inr ⟨rfl, rfl, rfl⟩

/-! ### The input offset (R25) -/

theorem encPadOrDone_i (p : Bool) (s : State) : (encPadOrDone p s).i = s.i := by
  unfold encPadOrDone
  split <;> rfl

theorem encTail_i (p : Bool) (s : State) : (encTail p s).i = s.i := by
  unfold encTail
  rw [encPadOrDone_i]
  split <;> rfl

/-- From `s` to `t` I, T and the draw counter stay. -/
structure SameCounts (s t : State) : Prop where
  read : t.i = s.i
  padding : t.t = s.t
  draws : t.draws = s.draws

theorem decSetPayload_sameCounts (len : Nat) (s : State) : SameCounts s (decSetPayload len s) := by
  unfold decSetPayload
  split <;> exact ⟨rfl, rfl, rfl⟩

theorem decEndPadRun_sameCounts (s : State) : SameCounts s (decEndPadRun s) := by
  unfold decEndPadRun
  split
  · exact ⟨rfl, rfl, rfl⟩
  · exact decSetPayload_sameCounts _ s

/-- R132: one '=' more is counted, or the count ends. -/
theorem decCountPad_cases (c : Byte) (s : State) :
    decCountPad c s = { s with t := s.t + 1#4 } ∨ SameCounts s (decCountPad c s) := by
  unfold decCountPad
  split
  · exact .inl rfl
  · exact .inr (decEndPadRun_sameCounts s)

theorem decCountPad_i (c : Byte) (s : State) : (decCountPad c s).i = s.i := by
  obtain hcount | hend := decCountPad_cases c s
  · rw [hcount]
  · exact hend.read

theorem StructMove.i_eq {p : Bool} {s t : State} (h : StructMove p s t) : t.i = s.i := by
  cases h with
  | reads c d _ _ _ heq => exact heq ▸ decCountPad_i c { s with draws := d }
  | ends _ _ heq => exact heq ▸ (decEndPadRun_sameCounts s).read
  | strips _ heq => exact heq ▸ (decSetPayload_sameCounts s.n s).read

theorem decEmitByte_i (s : State) : (decEmitByte s).i = s.i := by
  unfold decEmitByte
  split <;> rfl

theorem decPutChar_i (c : Byte) (s : State) : (decPutChar c s).i = s.i + 1 := by
  cases hrev : rev c with
  | none => rw [decPutChar_of_rev_eq_none hrev]; rfl
  | some v =>
    simp only [decPutChar, hrev]
    exact decEmitByte_i _

theorem decFinal_i (s : State) : (decFinal s).i = s.i := by
  unfold decFinal
  split <;> rfl

theorem exists_read_of_memRead {a : Nat} {s s' : State} {b : Byte} (h : memRead a s = some (b, s')) :
    ∃ b₀, s.input.read a = some b₀ := by
  obtain ⟨b₀, hb₀, -⟩ := memRead_cases h
  exact ⟨b₀, hb₀⟩

/-- Settles O25: phase by phase. -/
theorem inputOffsetGoesUpByOne : Obligations.InputOffsetGoesUpByOne := by
  intro s t hstep
  by_cases hidle : s.phase = .idle
  · simp [hidle]
  cases microMove_of_microStep ((blockStep_of_busy hidle).symm.trans hstep) with
  | idle hph => exact absurd hph hidle
  | load b d hph hread heq => exact ⟨fun _ => ⟨exists_read_of_memRead hread, heq ▸ rfl⟩, fun _ hne => absurd hph hne⟩
  | emit hph heq => simp [hph, heq, encEmit]
  | tail hph heq => simp [hph, heq, encTail_i]
  | pad hph heq => simp [hph, heq, encPad, encPadOrDone_i]
  | struct hph hmove => simp [hph, hmove.i_eq]
  | char c d hph hread heq =>
    exact ⟨fun _ => ⟨exists_read_of_memRead hread, heq ▸ decPutChar_i c _⟩, fun _ _ hne => absurd hph hne⟩
  | final hph heq => simp [hph, heq, decFinal_i]

end Sys2Proof

/-! Progress (R170, R198): where IN holds its N bytes an internal step of a running command answers and lowers the
number of steps still to make, so the run completes within the bound of R198, whatever the reads give. And the registers
that only D_STRUCT writes: T, L (R27), with the draw counter. -/

namespace Sys2Proof

open Machine Spec

/-! ### T, L and the draws -/

/-- From `s` to `t` T and L stay, and no draw is made where the host has changed nothing. -/
structure SameTallies (s t : State) : Prop where
  padding : t.t = s.t
  payload : t.l = s.l
  draws : s.changed = [] → t.draws = s.draws

theorem SameTallies.refl (s : State) : SameTallies s s := ⟨rfl, rfl, fun _ => rfl⟩

theorem SameTallies.trans {s t u : State} (h : SameTallies s t) (hc : t.changed = s.changed) (g : SameTallies t u) :
    SameTallies s u :=
  ⟨g.padding.trans h.padding, g.payload.trans h.payload, fun h0 => (g.draws (hc.trans h0)).trans (h.draws h0)⟩

/-- A read alone. -/
theorem SameTallies.of_read {a d : Nat} {s t : State} {b : Byte} (hread : memRead a s = some (b, { s with draws := d }))
    (h : SameTallies { s with draws := d } t) : SameTallies s t := by
  refine ⟨h.padding, h.payload, fun hc => (h.draws hc).trans ?_⟩
  obtain ⟨_, _, ⟨-, -, heq⟩ | ⟨hmem, -⟩⟩ := memRead_cases hread
  · exact congrArg State.draws heq
  · exact absurd (hc ▸ hmem) List.not_mem_nil

theorem encPadOrDone_sameTallies (p : Bool) (s : State) : SameTallies s (encPadOrDone p s) := by
  unfold encPadOrDone
  split <;> exact ⟨rfl, rfl, fun _ => rfl⟩

theorem encTail_sameTallies (p : Bool) (s : State) : SameTallies s (encTail p s) := by
  unfold encTail
  split
  · have h := encPadOrDone_sameTallies p { s.emit (alpha (accTailDigit s.acc s.nb.toNat)) with nb := 0#4 }
    exact ⟨h.padding, h.payload, h.draws⟩
  · exact encPadOrDone_sameTallies p s

theorem decPutChar_sameTallies (c : Byte) (s : State) : SameTallies s (decPutChar c s) := by
  cases hrev : rev c with
  | none =>
    rw [decPutChar_of_rev_eq_none hrev]
    exact ⟨rfl, rfl, fun _ => rfl⟩
  | some v =>
    simp only [decPutChar, decEmitByte, hrev]
    split <;> exact ⟨rfl, rfl, fun _ => rfl⟩

theorem decFinal_sameTallies (s : State) : SameTallies s (decFinal s) := by
  unfold decFinal
  split <;> exact ⟨rfl, rfl, fun _ => rfl⟩

theorem microStep_sameTallies {p : Bool} {s t : State} (hph : s.phase ≠ .dStruct) (h : microStep p s = .next t) :
    SameTallies s t := by
  cases microMove_of_microStep h with
  | idle _ heq => exact heq ▸ .refl s
  | load b d _ hread heq => exact heq ▸ .of_read hread ⟨rfl, rfl, fun _ => rfl⟩
  | emit _ heq => exact heq ▸ ⟨rfl, rfl, fun _ => rfl⟩
  | tail _ heq => exact heq ▸ encTail_sameTallies p s
  | pad _ heq => exact heq ▸ .trans (t := s.emit padChar) ⟨rfl, rfl, fun _ => rfl⟩ rfl (encPadOrDone_sameTallies p _)
  | struct hd => exact absurd hd hph
  | char c d _ hread heq => exact heq ▸ .of_read hread (decPutChar_sameTallies c _)
  | final _ heq => exact heq ▸ decFinal_sameTallies s

theorem decCountPad_t (c : Byte) (s : State) : (decCountPad c s).t = s.t ∨ (decCountPad c s).t = s.t + 1#4 := by
  obtain hcount | hend := decCountPad_cases c s
  · exact .inr (congrArg State.t hcount)
  · exact .inl hend.padding

theorem decCountPad_draws (c : Byte) (s : State) : (decCountPad c s).draws = s.draws := by
  obtain hcount | hend := decCountPad_cases c s
  · rw [hcount]
  · exact hend.draws

/-- R132: T is counted up from below 8, under P = 1 alone. -/
theorem StructMove.t_cases {p : Bool} {s t : State} (h : StructMove p s t) :
    t.t = s.t ∨ p = true ∧ s.t.toNat < 8 ∧ t.t = s.t + 1#4 := by
  cases h with
  | reads c d hp hmore _ heq => exact heq ▸ (decCountPad_t c _).imp_right fun h => ⟨hp, hmore.1, h⟩
  | ends _ _ heq => exact .inl (heq ▸ (decEndPadRun_sameCounts s).padding)
  | strips _ heq => exact .inl (heq ▸ (decSetPayload_sameCounts s.n s).padding)

theorem StructMove.draws_eq {p : Bool} {s t : State} (h : StructMove p s t) (hc : s.changed = []) :
    t.draws = s.draws := by
  cases h with
  | reads c d _ _ hread heq =>
    exact heq ▸ (decCountPad_draws c _).trans ((SameTallies.of_read hread (.refl _)).draws hc)
  | ends _ _ heq => exact heq ▸ (decEndPadRun_sameCounts s).draws
  | strips _ heq => exact heq ▸ (decSetPayload_sameCounts s.n s).draws

theorem microStep_of_dStruct {p : Bool} {s : State} (h : s.phase = .dStruct) : microStep p s = decStruct p s := by
  simp [microStep, h]

theorem microStep_t {p : Bool} {s t : State} (h : microStep p s = .next t) :
    t.t = s.t ∨ p = true ∧ s.t.toNat < 8 ∧ t.t = s.t + 1#4 := by
  by_cases hph : s.phase = .dStruct
  · exact (structMove_of_decStruct ((microStep_of_dStruct hph).symm.trans h)).t_cases
  · exact .inl (microStep_sameTallies hph h).padding

theorem microStep_draws {p : Bool} {s t : State} (hc : s.changed = []) (h : microStep p s = .next t) :
    t.draws = s.draws := by
  by_cases hph : s.phase = .dStruct
  · exact (structMove_of_decStruct ((microStep_of_dStruct hph).symm.trans h)).draws_eq hc
  · exact (microStep_sameTallies hph h).draws hc

/-! ### Every internal step answers -/

/-- IN holds a byte at each offset below N. -/
def InputBound (s : State) : Prop := ∀ a < s.n, (s.input.read a).isSome

theorem InputBound.of_same {s t : State} (h : InputBound s) (hst : SameCommand s t) : InputBound t := by
  intro a ha
  rw [hst.input]
  exact h a (hst.n ▸ ha)

theorem inputBound_of_eq {s : State} {bs : List Byte} (hn : s.n = bs.length) (hin : s.input = Memory.ofBytes bs) :
    InputBound s := by
  intro a ha
  rw [hin, Memory.read_ofBytes]
  simpa using hn ▸ ha

theorem InputBound.exists_memRead {s : State} {a : Nat} (h : InputBound s) (ha : a < s.n) :
    ∃ r, memRead a s = some r :=
  Option.isSome_iff_exists.mp (memRead_isSome.trans (h a ha))

theorem EncRegs.exists_microStep {p : Bool} {s : State} (h : EncRegs p s) (hin : InputBound s) :
    ∃ t, microStep p s = .next t := by
  cases h with
  | loop hph =>
    obtain ⟨hnext, -⟩ | ⟨hnext, -, hlt⟩ | ⟨hnext, -⟩ := encNextPhase_cases s <;> simp only [microStep, hph, hnext]
    · exact ⟨_, rfl⟩
    · obtain ⟨r, hr⟩ := hin.exists_memRead hlt
      exact ⟨encPutByte r.1 r.2, by simp only [encLoad, hr]⟩
    · exact ⟨_, rfl⟩
  | pad hph => exact ⟨encPad p s, by simp [microStep, hph]⟩
  | done hph => exact ⟨s, by simp [microStep, hph]⟩

theorem exists_decStruct_of_inputBound (p : Bool) {s : State} (hin : InputBound s) : ∃ t, decStruct p s = .next t := by
  unfold decStruct
  split
  · split
    next ht =>
      obtain ⟨r, hr⟩ := hin.exists_memRead (a := s.n - 1 - s.t.toNat) (by omega)
      exact ⟨decCountPad r.1 r.2, by simp only [hr]⟩
    next => exact ⟨_, rfl⟩
  · exact ⟨_, rfl⟩

theorem DecRegs.exists_microStep {p : Bool} {s : State} (h : DecRegs p s) (hin : InputBound s) :
    ∃ t, microStep p s = .next t := by
  cases h with
  | count hph =>
    rw [microStep_of_dStruct hph]
    exact exists_decStruct_of_inputBound p hin
  | loop hph _ _ _ hl =>
    obtain ⟨hnext, hlt⟩ | ⟨hnext, -⟩ := decNextPhase_cases s <;> simp only [microStep, hph, hnext]
    · obtain ⟨r, hr⟩ := hin.exists_memRead (hlt.trans_le hl)
      exact ⟨decPutChar r.1 r.2, by simp only [decChar, hr]⟩
    · exact ⟨_, rfl⟩
  | done hph => exact ⟨s, by simp [microStep, hph]⟩

/-! ### The internal steps still to make (R198) -/

theorem encMeasure_of_loop {s : State} (h : s.phase = encNextPhase s) :
    encMeasure s = (s.n - s.i) + (charCount s.n - s.k) + 8 := by
  obtain ⟨hph, _⟩ | ⟨hph, _⟩ | ⟨hph, _⟩ := encNextPhase_cases s <;> simp [encMeasure, h, hph]

theorem encMeasure_encPadOrDone_lt (p : Bool) (s : State) : encMeasure (encPadOrDone p s) < 8 := by
  unfold encPadOrDone
  split
  next h =>
    have hk := h.2
    show 8 - s.k % 8 < 8
    omega
  next => exact Nat.zero_lt_succ 7

theorem encMeasure_encPad_lt (p : Bool) {s : State} (hph : s.phase = .ePad) :
    encMeasure (encPad p s) < encMeasure s := by
  have hs : encMeasure s = 8 - s.k % 8 := by simp [encMeasure, hph]
  rw [hs]
  unfold encPad encPadOrDone
  split
  next h =>
    have hk := h.2
    rw [State.emit_k] at hk
    show 8 - (s.k + 1) % 8 < 8 - s.k % 8
    omega
  next =>
    show 0 < 8 - s.k % 8
    omega

/-- Every internal step of ENCODE lowers the measure. -/
theorem EncRegs.measure_lt {p : Bool} {s t : State} (h : EncRegs p s) (hb : s.phase ≠ .idle)
    (hm : microStep p s = .next t) : encMeasure t < encMeasure s := by
  cases h with
  | loop hph hbits hfill hle =>
    rw [encMeasure_of_loop hph]
    obtain ⟨hnext, hnb⟩ | ⟨hnext, -, hlt⟩ | ⟨hnext, -⟩ := encNextPhase_cases s <;>
      simp only [microStep, hph, hnext] at hm
    · cases hm
      have hroom : s.k < charCount s.n := by
        unfold charCount
        omega
      rw [encMeasure_of_loop (s := encEmit s) rfl]
      show (s.n - s.i) + (charCount s.n - (s.k + 1)) + 8 < _
      omega
    · obtain ⟨b, d, -, rfl⟩ := exists_read_of_encLoad hm
      rw [encMeasure_of_loop (s := encPutByte b { s with draws := d }) rfl]
      show (s.n - (s.i + 1)) + (charCount s.n - s.k) + 8 < _
      omega
    · cases hm
      exact (encMeasure_encPadOrDone_lt p _).trans_le (Nat.le_add_left 8 _)
  | pad hph =>
    simp only [microStep, hph] at hm
    cases hm
    exact encMeasure_encPad_lt p hph
  | done hph => exact absurd hph hb

theorem EncRegs.measure_le {p : Bool} {s : State} (h : EncRegs p s) : encMeasure s ≤ encBound s.n := by
  unfold encBound
  cases h with
  | loop hph =>
    rw [encMeasure_of_loop hph, charCount]
    omega
  | pad hph =>
    simp only [encMeasure, hph]
    omega
  | done hph => simp [encMeasure, hph]

theorem decMeasure_decCountPad_lt {p : Bool} (hp : p = true) (c : Byte) {s : State} (hph : s.phase = .dStruct)
    (ht : s.t.toNat < 8 ∧ s.t.toNat < s.n) : decMeasure p (decCountPad c s) < 8 - s.t.toNat + s.n + 1 := by
  unfold decCountPad
  split
  · rw [decMeasure_of_dStruct (s := { s with t := s.t + 1#4 }) hph, if_pos hp]
    show 8 - (s.t + 1#4).toNat + s.n + 1 < _
    rw [counter_add1 ht.1]
    omega
  · exact (decMeasure_decEndPadRun_le p s).trans_lt (by omega)

theorem StructMove.measure_lt {p : Bool} {s t : State} (h : StructMove p s t) (hph : s.phase = .dStruct) :
    decMeasure p t < decMeasure p s := by
  rw [decMeasure_of_dStruct hph]
  cases h with
  | reads c d hp hmore _ heq =>
    rw [heq, if_pos hp]
    exact decMeasure_decCountPad_lt hp c (s := { s with draws := d }) hph hmore
  | ends hp _ heq =>
    rw [heq, if_pos hp]
    exact (decMeasure_decEndPadRun_le p s).trans_lt (by omega)
  | strips hp heq =>
    rw [heq]
    exact (decMeasure_decSetPayload_le p s.n s).trans_lt (by simp [hp])

/-- Every internal step of DECODE lowers the measure. -/
theorem DecRegs.measure_lt {p : Bool} {s t : State} (h : DecRegs p s) (hb : s.phase ≠ .idle)
    (hm : microStep p s = .next t) : decMeasure p t < decMeasure p s := by
  cases h with
  | count hph => exact (structMove_of_decStruct ((microStep_of_dStruct hph).symm.trans hm)).measure_lt hph
  | loop hph _ hfill =>
    rw [decMeasure_of_loop hph]
    obtain ⟨hnext, hlt⟩ | ⟨hnext, -⟩ := decNextPhase_cases s <;> simp only [microStep, hph, hnext] at hm
    · obtain ⟨c, d, -, rfl⟩ := exists_read_of_decChar hm
      exact (decMeasure_decPutChar_le (s := { s with draws := d }) hfill).trans_lt
        (show s.l - (s.i + 1) + 1 < s.l - s.i + 1 by omega)
    · cases hm
      rw [decMeasure_of_idle (decFinal_phase s)]
      exact Nat.succ_pos _
  | done hph => exact absurd hph hb

theorem DecRegs.measure_le {p : Bool} {s : State} (h : DecRegs p s) : decMeasure p s ≤ decBound s.n := by
  unfold decBound
  cases h with
  | count hph =>
    rw [decMeasure_of_dStruct hph]
    split <;> omega
  | loop hph _ _ _ hl =>
    rw [decMeasure_of_loop hph]
    omega
  | done hph => rw [decMeasure_of_idle hph]; exact Nat.zero_le _

/-! ### Either command -/

def instrMeasure (i : Instr) (s : State) : Nat :=
  match i with
  | .enc _ => encMeasure s
  | .dec p => decMeasure p s

/-- Every internal step of a running command answers, keeps the relations and lowers the measure. -/
theorem InstrRegs.progress {i : Instr} {s : State} (h : InstrRegs i s) (hin : InputBound s) (hb : s.phase ≠ .idle) :
    ∃ t, microStep (instrPolicy i) s = .next t ∧ InstrRegs i t ∧ instrMeasure i t < instrMeasure i s := by
  cases i with
  | enc p =>
    obtain ⟨t, hm⟩ := EncRegs.exists_microStep h hin
    exact ⟨t, hm, EncRegs.step h hm, EncRegs.measure_lt h hb hm⟩
  | dec p =>
    obtain ⟨t, hm⟩ := DecRegs.exists_microStep h hin
    exact ⟨t, hm, DecRegs.step h hm, DecRegs.measure_lt h hb hm⟩

theorem InstrRegs.measure_le {i : Instr} {s : State} (h : InstrRegs i s) : instrMeasure i s ≤ instrBound i s.n := by
  cases i with
  | enc p => exact EncRegs.measure_le h
  | dec p => exact DecRegs.measure_le h

/-- The bound of the phase is the bound of the command that runs. -/
theorem InstrRegs.phaseBound_eq {i : Instr} {s : State} (h : InstrRegs i s) (hb : s.phase ≠ .idle) :
    phaseBound s.phase s.n = instrBound i s.n := by
  cases i with
  | enc p =>
    cases h with
    | loop hph => obtain ⟨hnext, -⟩ | ⟨hnext, -⟩ | ⟨hnext, -⟩ := encNextPhase_cases s <;> rw [hph, hnext] <;> rfl
    | pad hph => rw [hph]; rfl
    | done hph => exact absurd hph hb
  | dec p =>
    cases h with
    | count hph => rw [hph]; rfl
    | loop hph => obtain ⟨hnext, -⟩ | ⟨hnext, -⟩ := decNextPhase_cases s <;> rw [hph, hnext] <;> rfl
    | done hph => exact absurd hph hb

/-- R198: a running command completes within its bound. -/
theorem InstrRegs.completes {i : Instr} {s : State} (h : InstrRegs i s) (hin : InputBound s) :
    ∃ t, runToIdle (instrPolicy i) (instrBound i s.n) s = .next t := by
  obtain ⟨t, hrun, -⟩ := runToIdle_completes (P := fun u => InstrRegs i u ∧ InputBound u) (instrMeasure i)
    (fun u ⟨hu, hinu⟩ hb => by
      obtain ⟨t, hm, ht, hlt⟩ := hu.progress hinu hb
      exact ⟨t, hm, ⟨ht, hinu.of_same (microStep_same hm)⟩, hlt⟩)
    ⟨h, hin⟩ h.measure_le
  exact ⟨t, hrun⟩

/-! ### A command's meaning -/

theorem exec_eq_run (i : Instr) (s : State) :
    exec i s = runToIdle (instrPolicy i) (instrBound i s.n) (startCommand i s) := by
  cases i <;> rfl

/-- What the start establishes and every internal step keeps holds at the completion. -/
theorem exec_induct {i : Instr} {P : State → Prop}
    (hstep : ∀ s t, P s → s.phase ≠ .idle → microStep (instrPolicy i) s = .next t → P t) {s t : State}
    (hs : P (startCommand i s)) (h : exec i s = .next t) : P t ∧ t.phase = .idle :=
  runToIdle_induct hstep hs ((exec_eq_run i s).symm.trans h)

/-- R198: a command whose input is bound completes. -/
theorem exists_exec (i : Instr) {s : State} (hin : InputBound s) : ∃ t, exec i s = .next t := by
  have hsame := startCommand_same i s
  obtain ⟨t, hrun⟩ := (instrRegs_startCommand i s).completes (hin.of_same hsame)
  rw [hsame.n] at hrun
  exact ⟨t, (exec_eq_run i s).trans hrun⟩

end Sys2Proof

/-! Soundness (Safety.lean): every step of the machine keeps it, and from a sound state every step answers. A sound busy
state is one in which the registers of the latched command stand as they should; what a step does to the output side and
to T is taken from the lemmas above. -/

namespace Sys2Proof

open Machine Spec

/-! ### The parts of the invariant -/

/-- In IDLE there is nothing to say of the phases. -/
theorem inv_of_idle {s : State} (hidle : s.phase = .idle) (hst : s.staging = []) (hin : s.input.wf)
    (hresp : s.responseInv) (hwidth : s.widthInv) : s.Inv where
  staging := by simp [State.stagingInv, hidle, hst]
  input := ⟨hin, fun hb => absurd hidle hb⟩
  response := hresp
  width := hwidth
  enc := by simp [State.encPhaseInv, hidle]
  dec := by simp [State.decPhaseInv, hidle]

/-- The port, the host's actions and changes and the draw counter are no part of the invariant. -/
theorem Machine.State.Inv.outside {s : State} (h : s.Inv) (port : Option Command) (acts : List HostAction)
    (changed : List Nat) (draws : Nat) :
    { s with port := port, hostActions := acts, changed := changed, draws := draws }.Inv :=
  ⟨h.staging, h.input, h.response, h.width, h.enc, h.dec⟩

theorem responseInv_of_eq {s t : State} (h : t.response = s.response) (hs : s.responseInv) : t.responseInv := by
  obtain ⟨hst, hlen, hout⟩ : t.status = s.status ∧ t.outLen = s.outLen ∧ t.out = s.out := by
    simpa [State.response] using h
  rw [State.responseInv, hst, hlen, hout]
  exact hs

theorem responseInv_fail (code : StatusWord) (s : State) : (s.fail code).responseInv := ⟨rfl, fun _ => rfl⟩

theorem InstrRegs.fill {i : Instr} {s : State} (h : InstrRegs i s) : s.nb.toNat ≤ 12 := by
  cases i with
  | enc p =>
    cases h with
    | loop _ _ hfill => exact hfill
    | pad _ _ hnb => simp [hnb]
    | done _ hnb => simp [hnb]
  | dec p =>
    cases h with
    | count _ _ _ hnb => simp [hnb]
    | loop _ _ hfill => omega
    | done _ hfill => omega

/-- The clauses on the phases, of ENCODE. -/
theorem phaseInv_of_encRegs {p : Bool} {s : State} (hw : decodeWord s.cmd = .ok (.enc p)) (h : EncRegs p s) :
    s.encPhaseInv ∧ s.decPhaseInv := by
  obtain rfl : s.policy = p := policy_of_decodeWord hw
  have hruns : s.runsEnc := hw
  cases h with
  | loop hph hbits hfill hle =>
    obtain ⟨hnext, hnb⟩ | ⟨hnext, hnb, hlt⟩ | ⟨hnext, hnb, hge⟩ := encNextPhase_cases s <;> rw [hnext] at hph
    · simpa [State.encPhaseInv, State.decPhaseInv, hph] using ⟨hruns, hbits, hnb, hle⟩
    · simpa [State.encPhaseInv, State.decPhaseInv, hph] using ⟨hruns, hbits, hnb, hlt⟩
    · simpa [State.encPhaseInv, State.decPhaseInv, hph] using ⟨hruns, hbits, hnb, le_antisymm hle hge⟩
  | pad hph hp hnb hread hge hlt hmore =>
    simpa [State.encPhaseInv, State.decPhaseInv, hph] using ⟨hruns, hp, hnb, hread, hge, hlt, hmore⟩
  | done hph => simp [State.encPhaseInv, State.decPhaseInv, hph]

/-- The clauses on the phases, of DECODE. -/
theorem phaseInv_of_decRegs {p : Bool} {s : State} (hw : decodeWord s.cmd = .ok (.dec p)) (h : DecRegs p s) :
    s.encPhaseInv ∧ s.decPhaseInv := by
  obtain rfl : s.policy = p := policy_of_decodeWord hw
  have hruns : s.runsDec := hw
  cases h with
  | count hph hread hk hnb hrun =>
    simpa [State.encPhaseInv, State.decPhaseInv, hph] using ⟨hruns, hread, hk, hnb, hrun⟩
  | loop hph hbits hfill hle hl hrem =>
    obtain ⟨hnext, hlt⟩ | ⟨hnext, hge⟩ := decNextPhase_cases s <;> rw [hnext] at hph
    · simpa [State.encPhaseInv, State.decPhaseInv, hph] using ⟨hruns, hbits, hfill, hlt, hl, hrem⟩
    · simpa [State.encPhaseInv, State.decPhaseInv, hph] using ⟨hruns, hbits, hfill, le_antisymm hle hge, hl, hrem⟩
  | done hph => simp [State.encPhaseInv, State.decPhaseInv, hph]

/-- A state is sound if the registers of its command are related, its output side is sound and T is at most 8. -/
theorem inv_of_instrRegs {i : Instr} {s : State} (hw : decodeWord s.cmd = .ok i) (h : InstrRegs i s)
    (hst : s.stagingInv) (hin : s.inputInv) (hresp : s.responseInv) (ht : s.t.toNat ≤ 8) : s.Inv := by
  have hphase : s.encPhaseInv ∧ s.decPhaseInv := by
    cases i with
    | enc p => exact phaseInv_of_encRegs hw h
    | dec p => exact phaseInv_of_decRegs hw h
  exact ⟨hst, hin, hresp, ⟨ht, h.fill⟩, hphase.1, hphase.2⟩

/-- In a sound busy state a command is latched and its registers are related. -/
theorem Machine.State.Inv.running {s : State} (h : s.Inv) (hb : s.phase ≠ .idle) :
    ∃ i, decodeWord s.cmd = .ok i ∧ InstrRegs i s := by
  obtain ⟨hload, hemit, htail, hpad⟩ := h.enc
  obtain ⟨hcount, hchar, hfinal⟩ := h.dec
  have hfill := h.width.2
  cases hph : s.phase with
  | idle => exact absurd hph hb
  | eLoad =>
    obtain ⟨hw, hbits, hnb, hlt⟩ := hload hph
    exact ⟨.enc s.policy, hw, .loop (by rw [hph, encNextPhase, if_neg (by omega), if_pos hlt]) hbits hfill hlt.le⟩
  | eEmit =>
    obtain ⟨hw, hbits, hnb, hle⟩ := hemit hph
    exact ⟨.enc s.policy, hw, .loop (by rw [hph, encNextPhase, if_pos hnb]) hbits hfill hle⟩
  | eTail =>
    obtain ⟨hw, hbits, hnb, hread⟩ := htail hph
    exact ⟨.enc s.policy, hw, .loop (by rw [hph, encNextPhase, if_neg (by omega), if_neg hread.not_lt]) hbits hfill
      hread.le⟩
  | ePad =>
    obtain ⟨hw, hp, hnb, hread, hge, hlt, hmore⟩ := hpad hph
    exact ⟨.enc s.policy, hw, .pad hph hp hnb hread hge hlt hmore⟩
  | dStruct =>
    obtain ⟨hw, hread, hk, hnb, hrun⟩ := hcount hph
    exact ⟨.dec s.policy, hw, .count hph hread hk hnb hrun⟩
  | dChar =>
    obtain ⟨hw, hbits, hnb, hlt, hl, hrem⟩ := hchar hph
    exact ⟨.dec s.policy, hw, .loop (by rw [hph, decNextPhase, if_pos hlt]) hbits hnb hlt.le hl hrem⟩
  | dFinal =>
    obtain ⟨hw, hbits, hnb, hread, hl, hrem⟩ := hfinal hph
    exact ⟨.dec s.policy, hw, .loop (by rw [hph, decNextPhase, if_neg hread.not_lt]) hbits hnb hread.le hl hrem⟩

/-! ### An internal step keeps it -/

/-- R42 after an internal step. -/
theorem OutputMove.stagingInv {s t : State} (h : OutputMove s t) (hs : s.staging.map Prod.fst = List.range s.k) :
    t.stagingInv := by
  cases h with
  | runs hst hb => rw [State.stagingInv, if_neg hb, hst.offsets hs]
  | completes u _ heq => simp [State.stagingInv, heq]
  | fails u heq => simp [State.stagingInv, heq]

/-- R29 after an internal step. -/
theorem OutputMove.responseInv {s t : State} (h : OutputMove s t) (hs : s.staging.map Prod.fst = List.range s.k)
    (hkeeps : KeepsResponseOrCompletes s t) (hresp : s.responseInv) : t.responseInv := by
  cases h with
  | runs _ hb => exact responseInv_of_eq (hkeeps.resolve_right hb) hresp
  | completes u hst heq =>
    subst heq
    exact ⟨(Memory.slice_length (hst.offsets hs)).symm, fun hne => absurd rfl hne⟩
  | fails u heq =>
    subst heq
    exact responseInv_fail _ u

/-- R41 after an internal step. -/
theorem inputInv_of_same {s t : State} (h : SameCommand s t) (hb : s.phase ≠ .idle) (hin : s.inputInv) : t.inputInv := by
  obtain ⟨hwf, hbound⟩ := hin
  rw [State.inputInv, h.input, h.n, h.cfg]
  exact ⟨hwf, fun _ => hbound hb⟩

theorem Machine.State.Inv.microStep {s t : State} (h : s.Inv) (hb : s.phase ≠ .idle)
    (hm : Machine.microStep s.policy s = .next t) : t.Inv := by
  obtain ⟨i, hw, hregs⟩ := h.running hb
  have hsame := microStep_same hm
  have hout := outputMove_of_microStep hb hm
  have hregs' := hregs.step (policy_of_decodeWord hw ▸ hm)
  have hoff := h.offsets hb
  have ht : t.t.toNat ≤ 8 := by
    obtain hkept | ⟨-, hlt, hadd⟩ := microStep_t hm
    · rw [hkept]
      exact h.width.1
    · rw [hadd, counter_add1 hlt]
      exact hlt
  exact inv_of_instrRegs (hsame.cmd ▸ hw) hregs' (hout.stagingInv hoff) (inputInv_of_same hsame hb h.input)
    (hout.responseInv hoff (microStep_response hm) h.response) ht

/-! ### Acceptance and refusal keep it -/

/-- What the start of a command leaves on the output side and in T. -/
structure FreshStart (s t : State) : Prop where
  staging : t.staging = []
  count : t.k = 0
  padding : t.t = s.t ∨ t.t = 0#4
  response : s.responseInv → t.responseInv

theorem freshStart_startCommand (i : Instr) (s : State) : FreshStart s (startCommand i s) := by
  cases i with
  | enc p => exact ⟨rfl, rfl, .inl rfl, id⟩
  | dec p =>
    show FreshStart s (decStart p s)
    by_cases hlen : p = true → s.n % 8 = 0
    · rw [decStart_of_not_length hlen]
      refine ⟨rfl, rfl, ?_, id⟩
      cases p
      · exact .inl rfl
      · exact .inr rfl
    · obtain ⟨rfl, hne⟩ := Classical.not_imp.mp hlen
      rw [decStart_of_length hne]
      exact ⟨rfl, rfl, .inl rfl, fun _ => responseInv_fail _ _⟩

/-- The start of an accepted command is sound. -/
theorem inv_startCommand {i : Instr} {s : State} {c : Command} (h : s.Inv) (hw : decodeWord c.cmd = .ok i)
    (hfits : s.cfg.accepts c.n = true) : (startCommand i ((s.latch c).bindInput c)).Inv := by
  have hsame := startCommand_same i ((s.latch c).bindInput c)
  obtain ⟨hst, hk, ht, hresp⟩ := freshStart_startCommand i ((s.latch c).bindInput c)
  refine inv_of_instrRegs (hsame.cmd ▸ hw) (instrRegs_startCommand i _) ?_ ?_ (hresp h.response) ?_
  · simp [State.stagingInv, hst, hk]
  · rw [State.inputInv, hsame.input, hsame.n, hsame.cfg]
    exact ⟨Memory.ofBytes_wf c.input, fun _ => ⟨Memory.ofBytes_offsets c.input, hfits⟩⟩
  · obtain hkept | hzero := ht
    · rw [hkept]
      exact h.width.1
    · simp [hzero]

/-- A refusal is sound. -/
theorem inv_refused {s : State} (h : s.Inv) (c : Command) : ((s.latch c).fail statusBadCommand).Inv :=
  inv_of_idle rfl rfl h.input.1 (responseInv_fail _ _) h.width

/-! ### Every step keeps it -/

theorem Machine.State.Inv.blockStep {s t : State} (h : s.Inv) (hstep : Machine.blockStep s = .next t) : t.Inv := by
  cases blockMove_of_blockStep hstep with
  | runs hb hm => exact h.microStep hb hm
  | waits _ _ heq => exact heq ▸ h
  | refuses c _ _ heq => exact heq ▸ inv_refused h c
  | accepts c i _ _ hw hfits heq => exact heq ▸ inv_startCommand h hw hfits

theorem Machine.State.Inv.runToIdle {f : Nat} {s t : State} (h : s.Inv)
    (hrun : Machine.runToIdle s.policy f s = .next t) : t.Inv :=
  (runToIdle_induct (P := fun u => u.Inv ∧ u.policy = s.policy)
    (fun _ _ ⟨hu, hp⟩ hb hm => ⟨hu.microStep hb (hp ▸ hm), (microStep_same hm).policy.trans hp⟩) ⟨h, rfl⟩ hrun).1.1

theorem Machine.State.Inv.commandStep {s t : State} (h : s.Inv) (hstep : Machine.commandStep s = .next t) : t.Inv := by
  by_cases hidle : s.phase = .idle
  · obtain ⟨-, hin⟩ | ⟨c, -, hin, -⟩ | ⟨c, i, -, hw, hfits, hin⟩ := intake_cases s <;>
      simp only [Machine.commandStep, hidle, hin, if_true] at hstep
    · cases hstep
      exact h
    · cases hstep
      exact inv_refused h c
    · exact (inv_startCommand h hw hfits).runToIdle ((exec_eq_runToIdle hw).symm.trans hstep)
  · simp only [Machine.commandStep, hidle, if_false] at hstep
    exact h.runToIdle hstep

/-- The host's write to IN lists an offset and nothing else. -/
theorem Machine.State.Inv.disturb {s : State} (h : s.Inv) (offset : Nat) : (s.disturb offset).Inv := by
  rw [State.disturb_eq]
  exact h.outside s.port s.hostActions _ s.draws

/-- Settles O3: the reset state is IDLE with nothing staged. -/
theorem resetStateIsSound : Obligations.ResetStateIsSound :=
  inv_of_idle rfl rfl reset_input_wf ⟨rfl, fun _ => rfl⟩ ⟨Nat.zero_le 8, Nat.zero_le 12⟩

theorem inv_resetBlock (s : State) : s.resetBlock.Inv :=
  inv_of_idle rfl rfl reset_input_wf ⟨rfl, fun _ => rfl⟩ ⟨Nat.zero_le 8, Nat.zero_le 12⟩

theorem Machine.State.Inv.hostStep {a : HostAction} {rest : List HostAction} {s t : State} (h : s.Inv)
    (hstep : Machine.hostStep a rest s = .next t) : t.Inv := by
  cases a with
  | present c =>
    simp only [Machine.hostStep, presentStep] at hstep
    split at hstep
    · cases hstep
      exact h.outside (some c) rest s.changed s.draws
    · exact h.blockStep hstep
  | pulse => exact (h.outside s.port rest s.changed s.draws).blockStep hstep
  | disturb offset =>
    cases hstep
    exact (h.outside s.port rest s.changed s.draws).disturb offset
  | reset =>
    cases hstep
    exact inv_resetBlock _

/-- Settles O4: a command, or the host's next action. -/
theorem stepKeepsSoundness : Obligations.StepKeepsSoundness := by
  intro s t h hstep
  simp only [step, nextStep] at hstep
  split at hstep
  · exact h.commandStep hstep
  · exact h.hostStep hstep

/-! ### Every step answers -/

theorem read_isSome_of_mem_offsets {m : Memory} {a : Nat} (h : a ∈ m.map Prod.fst) : (m.read a).isSome := by
  induction m with
  | nil => simp at h
  | cons cell rest ih =>
    obtain ⟨x, b⟩ := cell
    unfold Memory.read
    split
    next => rfl
    next hne => exact ih ((List.mem_cons.mp h).resolve_left (Ne.symm hne))

theorem Machine.State.Inv.inputBound {s : State} (h : s.Inv) (hb : s.phase ≠ .idle) : InputBound s := by
  intro a ha
  obtain ⟨-, hbound⟩ := h.input
  refine read_isSome_of_mem_offsets ?_
  rw [(hbound hb).1]
  exact List.mem_range.mpr ha

theorem Machine.State.Inv.exists_blockStep {s : State} (h : s.Inv) : ∃ t, Machine.blockStep s = .next t := by
  by_cases hidle : s.phase = .idle
  · obtain ⟨-, hin⟩ | ⟨c, -, hin, -⟩ | ⟨c, i, -, -, -, hin⟩ := intake_cases s <;>
      exact ⟨_, by simp only [Machine.blockStep, hidle, hin, if_true]; rfl⟩
  · obtain ⟨i, hw, hregs⟩ := h.running hidle
    obtain ⟨t, hm, -⟩ := hregs.progress (h.inputBound hidle) hidle
    exact ⟨t, (blockStep_of_busy hidle).trans (policy_of_decodeWord hw ▸ hm)⟩

theorem Machine.State.Inv.exists_commandStep {s : State} (h : s.Inv) : ∃ t, Machine.commandStep s = .next t := by
  by_cases hidle : s.phase = .idle
  · obtain ⟨-, hin⟩ | ⟨c, -, hin, -⟩ | ⟨c, i, -, hw, -, hin⟩ := intake_cases s
    · exact ⟨s, by simp only [Machine.commandStep, hidle, hin, if_true]⟩
    · exact ⟨_, by simp only [Machine.commandStep, hidle, hin, if_true]; rfl⟩
    · obtain ⟨t, hrun⟩ := exists_exec i (s := (s.latch c).bindInput c) (inputBound_of_eq rfl rfl)
      exact ⟨t, by simp only [Machine.commandStep, hidle, hin, if_true, hrun]⟩
  · obtain ⟨i, hw, hregs⟩ := h.running hidle
    obtain ⟨t, hrun⟩ := hregs.completes (h.inputBound hidle)
    exact ⟨t, by rw [Machine.commandStep, if_neg hidle, hregs.phaseBound_eq hidle, policy_of_decodeWord hw, hrun]⟩

theorem Machine.State.Inv.exists_hostStep {s : State} (h : s.Inv) (a : HostAction) (rest : List HostAction) :
    ∃ t, Machine.hostStep a rest s = .next t := by
  cases a with
  | present c =>
    simp only [Machine.hostStep, presentStep]
    split
    · exact ⟨_, rfl⟩
    · exact h.exists_blockStep
  | pulse => exact (h.outside s.port rest s.changed s.draws).exists_blockStep
  | disturb offset => exact ⟨_, rfl⟩
  | reset => exact ⟨_, rfl⟩

/-- Settles O5: a command, or the host's next action. -/
theorem soundStateStepAnswersNext : Obligations.SoundStateStepAnswersNext := by
  intro s h
  simp only [stepSafe, step, nextStep]
  split
  · exact h.exists_commandStep
  · exact h.exists_hostStep _ _

/-! ### One transition and its internal steps (R199) -/

/-- R198's row of an accepted command. -/
theorem commandBound_of_accepted {cfg : Config} {c : Command} {i : Instr} (hw : decodeWord c.cmd = .ok i)
    (hfits : cfg.accepts c.n = true) : commandBound cfg c = instrBound i c.n := by
  simp only [commandBound, hw, hfits, if_true]
  cases i <;> rfl

/-- Settles O18: acceptance and the steps of the run, or the one step of a refusal. -/
theorem commandStepIsItsInternalSteps : Obligations.CommandStepIsItsInternalSteps := by
  intro s c hpres
  have ⟨hidle, _, hport⟩ := hpres
  obtain ⟨hnone, -⟩ | ⟨c', -, hin, -⟩ | ⟨c', i, hport', hw, hfits, hin⟩ := intake_cases s
  · simp [hport] at hnone
  · have hblock : blockStep s = .next (s.latch c').raiseBadCommand := by simp [blockStep, hidle, hin]
    refine ⟨1, Nat.le_add_right 1 _, ?_⟩
    rw [step_of_intake_rejected hpres hin, blockSteps_succ hblock, blockSteps]
  · obtain rfl := Option.some_inj.mp (hport.symm.trans hport')
    obtain ⟨t, hrun⟩ := exists_exec i (s := (s.latch c).bindInput c) (inputBound_of_eq rfl rfl)
    obtain ⟨k, hk, hsteps⟩ := exists_blockSteps_of_accepted hidle hin hw hrun
    refine ⟨k, ?_, hsteps.trans (hrun.symm.trans (step_of_intake_accepted hpres hin).symm)⟩
    rw [commandBound_of_accepted hw hfits, Nat.add_comm]
    exact hk

end Sys2Proof

/-! The frames of the two commands (R24, R41, R106, R112 of 41_encode.md, R130 of 42_decode.md): a whole run, with the
registers its completion leaves. -/

namespace Sys2Proof

open Machine Spec

theorem sameOutside_of_sameCommand {s t : State} (h : SameCommand s t) (hdraws : t.draws = s.draws) :
    SameOutside s t :=
  ⟨h.cfg, h.cmd, h.n, h.input, h.port, h.hostActions, h.changed, hdraws⟩

/-! ### ENCODE -/

theorem EncRegs.phase_ne_dStruct {p : Bool} {s : State} (h : EncRegs p s) : s.phase ≠ .dStruct := by
  cases h with
  | loop hph => obtain ⟨hnext, -⟩ | ⟨hnext, -⟩ | ⟨hnext, -⟩ := encNextPhase_cases s <;> simp [hph, hnext]
  | pad hph => simp [hph]
  | done hph => simp [hph]

theorem EncRegs.at_completion {p : Bool} {s : State} (h : EncRegs p s) (hidle : s.phase = .idle) :
    s.i = s.n ∧ s.k = s.outLen ∧ s.nb = 0#4 := by
  cases h with
  | loop hph => exact absurd (hph.symm.trans hidle) (encNextPhase_ne_idle s)
  | pad hph => simp [hidle] at hph
  | done _ hnb hread _ hcount => exact ⟨hread, hcount.symm, hnb⟩

/-- Settles O38: ENCODE has no D_STRUCT, which alone writes T and L, and its registers at completion are those of the
tail and the padding. -/
theorem encodeFrame : Obligations.EncodeFrame := by
  intro p s t bs hs hrun
  obtain ⟨⟨hregs, hsame, htallies⟩, hidle⟩ :=
    exec_induct (i := .enc p) (P := fun u => EncRegs p u ∧ SameCommand s u ∧ SameTallies s u)
      (fun u v ⟨hregs, hsame, htallies⟩ _ hm =>
        ⟨hregs.step hm, hsame.trans (microStep_same hm),
          htallies.trans hsame.changed (microStep_sameTallies hregs.phase_ne_dStruct hm)⟩)
      ⟨encRegs_encStart p s, encStart_same s, ⟨rfl, rfl, fun _ => rfl⟩⟩ hrun
  obtain ⟨hread, hk, hnb⟩ := hregs.at_completion hidle
  exact ⟨sameOutside_of_sameCommand hsame (htallies.draws hs.2.2), htallies.padding, htallies.payload,
    hread.trans hsame.n, hk, hnb, fun a => by rw [hsame.input]⟩

/-! ### DECODE -/

theorem decStart_draws (p : Bool) (s : State) : (decStart p s).draws = s.draws := by
  by_cases hlen : p = true → s.n % 8 = 0
  · rw [decStart_of_not_length hlen]
    rfl
  · obtain ⟨rfl, hne⟩ := Classical.not_imp.mp hlen
    rw [decStart_of_length hne]
    rfl

theorem DecRegs.at_completion {p : Bool} {s : State} (h : DecRegs p s) (hidle : s.phase = .idle)
    (hok : s.status = statusOk) : s.outLen = s.k := by
  cases h with
  | count hph => simp [hidle] at hph
  | loop hph => exact absurd (hph.symm.trans hidle) (decNextPhase_ne_idle s)
  | done _ _ _ hcount => exact hcount hok

/-- Settles O53: the answer is OK or INVALID_ENCODING, and under P = 0 no step counts padding. -/
theorem decodeCompletesWithItsFrame : Obligations.DecodeCompletesWithItsFrame := by
  intro p s text hs
  obtain ⟨t, hrun, hidle, -, hend⟩ := exists_exec_dec p hs
  obtain ⟨⟨hregs, hsame, hdraws, hpad⟩, -⟩ :=
    exec_induct (i := .dec p)
      (P := fun u => DecRegs p u ∧ SameCommand s u ∧ u.draws = s.draws ∧ (p = false → u.t = s.t))
      (fun u v ⟨hregs, hsame, hdraws, hpad⟩ _ hm =>
        ⟨hregs.step hm, hsame.trans (microStep_same hm),
          (microStep_draws (hsame.changed.trans hs.2.2) hm).trans hdraws, fun hp =>
            ((microStep_t hm).resolve_right fun hcount => by simp [instrPolicy, hp] at hcount).trans (hpad hp)⟩)
      ⟨decRegs_decStart p s, decStart_same p s, decStart_draws p s, by rintro rfl; rfl⟩ hrun
  have hstatus : t.status = statusOk ∨ t.status = statusInvalidEncoding := by
    obtain ⟨b, -, hresp⟩ | ⟨-, hresp⟩ := hend.answer
    · exact .inl (congrArg Response.status hresp)
    · exact .inr (congrArg Response.status hresp)
  exact ⟨t, hrun, hidle, hstatus, hregs.at_completion hidle, sameOutside_of_sameCommand hsame hdraws, hpad,
    fun a => by rw [hsame.input]⟩

end Sys2Proof

/-! The trailing '=' of a text in which one code unit is replaced (R132, R195). -/

namespace Sys2Proof

open Machine Spec

theorem padRun_append_of_getLast? {front : List Byte} (h : front.getLast? ≠ some padChar) (c : Nat) :
    padRun (front ++ List.replicate c padChar) = c := by
  have hnone : front.reverse.takeWhile (· = padChar) = [] := by
    refine List.takeWhile_eq_nil_iff.mpr fun hl he => h ?_
    rw [← List.head?_reverse, List.head?_eq_getElem?, List.getElem?_eq_getElem hl]
    exact congrArg some (of_decide_eq_true he)
  rw [padRun, List.reverse_append, List.reverse_replicate, List.takeWhile_append_of_pos (by simp), hnone,
    List.append_nil, List.length_replicate]

theorem le_padRun_append_replicate (front : List Byte) (c : Nat) : c ≤ padRun (front ++ List.replicate c padChar) := by
  rw [padRun, List.reverse_append, List.reverse_replicate, List.takeWhile_append_of_pos (by simp), List.length_append,
    List.length_replicate]
  exact Nat.le_add_right c _

/-- Replacing the code unit before the last `T` leaves the `T` trailing '=' counted. -/
theorem le_padRun_set {text : List Byte} {T : Nat} (hT : T ≤ padRun text) (hlt : T < text.length) (c : Byte) :
    T ≤ padRun (text.set (text.length - 1 - T) c) := by
  obtain ⟨chars, htext, -⟩ := exists_eq_append_padRun text
  have hfront : text = chars ++ List.replicate (padRun text - T) padChar ++ List.replicate T padChar := by
    rw [List.append_assoc, List.replicate_append_replicate, Nat.sub_add_cancel hT, ← htext]
  generalize chars ++ List.replicate (padRun text - T) padChar = front at hfront
  subst hfront
  rw [List.length_append, List.length_replicate] at hlt ⊢
  rw [List.set_append_left _ _ (by omega)]
  exact le_padRun_append_replicate _ T

/-- Replacing a code unit of the payload by no '=' leaves the trailing run of '='. -/
theorem padRun_set {text : List Byte} {j : Nat} (hj : j < text.length - padRun text) {c : Byte} (hc : c ≠ padChar) :
    padRun (text.set j c) = padRun text := by
  obtain ⟨chars, htext, hlast⟩ := exists_eq_append_padRun text
  generalize padRun text = run at *
  subst htext
  rw [List.length_append, List.length_replicate, Nat.add_sub_cancel] at hj
  rw [List.set_append_left _ _ hj]
  refine padRun_append_of_getLast? ?_ run
  rw [List.getLast?_eq_getElem?] at hlast ⊢
  rw [List.length_set, List.getElem?_set]
  split
  · simpa [hj] using hc
  · exact hlast

/-- A text with the same length and, under P = 1, the same trailing run has the same payload length. -/
theorem payloadLen_congr {p : Bool} {text text' : List Byte} (hlen : text'.length = text.length)
    (hrun : p = true → padRun text' = padRun text) : payloadLen p text' = payloadLen p text := by
  cases p with
  | false => exact hlen
  | true => rw [payloadLen_true, payloadLen_true, hlen, hrun rfl]

theorem phase1Ok_congr {p : Bool} {text text' : List Byte} (hlen : text'.length = text.length)
    (hrun : p = true → padRun text' = padRun text) (h : phase1Ok p text) : phase1Ok p text' := by
  unfold phase1Ok
  rw [payloadLen_congr hlen hrun, hlen]
  exact ⟨fun hp => hrun hp ▸ h.1 hp, h.2⟩

theorem Phase1Regs.congr {p : Bool} {text text' : List Byte} {s : State} (h : Phase1Regs p text s)
    (hlen : text'.length = text.length) (hrun : p = true → padRun text' = padRun text) : Phase1Regs p text' s where
  padding hp hmul := by rw [hrun hp, h.padding hp (hlen ▸ hmul)]
  payload hpass := by
    rw [payloadLen_congr hlen hrun, h.payload fun hp => ?_]
    rw [← hlen, ← hrun hp]
    exact hpass hp

end Sys2Proof

/-! A command whose IN the host changes before its first internal step (R48, R195 of 70_reset_and_hazards.md). The input
it responds for is a ghost of the run: it agrees with the bound one outside the changed offsets, and each read of a
changed offset settles what stands there. -/

namespace Sys2Proof

open Machine Spec

/-! ### Inputs that agree outside the changed offsets -/

structure AgreesOutside (changed : List Nat) (bs bs' : List Byte) : Prop where
  len : bs'.length = bs.length
  same : ∀ j, j ∉ changed → bs'[j]? = bs[j]?

theorem AgreesOutside.refl (changed : List Nat) (bs : List Byte) : AgreesOutside changed bs bs := ⟨rfl, fun _ _ => rfl⟩

theorem AgreesOutside.mono {changed changed' : List Nat} {bs bs' : List Byte} (h : AgreesOutside changed bs bs')
    (hsub : changed ⊆ changed') : AgreesOutside changed' bs bs' :=
  ⟨h.len, fun j hj => h.same j fun hc => hj (hsub hc)⟩

theorem AgreesOutside.set {changed : List Nat} {bs bs' : List Byte} (h : AgreesOutside changed bs bs') {j : Nat}
    {b : Byte} (hb : j ∉ changed → bs[j]? = some b) : AgreesOutside changed bs (bs'.set j b) where
  len := List.length_set.trans h.len
  same a ha := by
    rw [List.getElem?_set]
    split
    next hja =>
      subst hja
      have hlt : j < bs'.length := by
        rw [h.len]
        exact (List.getElem?_eq_some_iff.mp (hb ha)).1
      rw [if_pos hlt, hb ha]
    next => exact h.same a ha

theorem ReadsOf.agreesOutside {changed : List Nat} {bs rd : List Byte} (h : ReadsOf changed bs rd)
    (hlen : rd.length = bs.length) : AgreesOutside changed bs rd where
  len := hlen
  same j hj := by
    obtain hlt | hge := lt_or_ge j rd.length
    · exact h j hlt hj
    · rw [List.getElem?_eq_none hge, List.getElem?_eq_none (hlen ▸ hge)]

/-- What a read of an offset the host has not changed gives is the byte bound there. -/
theorem getElem?_of_memRead {a : Nat} {s s' : State} {b : Byte} {bs : List Byte} (hin : s.input = Memory.ofBytes bs)
    (h : memRead a s = some (b, s')) (ha : a ∉ s.changed) : bs[a]? = some b := by
  obtain ⟨b₀, hb₀, ⟨-, rfl, -⟩ | ⟨hc, -⟩⟩ := memRead_cases h
  · rw [← hb₀, hin, Memory.read_ofBytes]
  · exact absurd hc ha

/-! ### ENCODE -/

/-- Settles O26: the input is what the reads gave, one read at each offset. -/
theorem disturbedEncodeRespondsForSomeInput : Obligations.DisturbedEncodeRespondsForSomeInput := by
  intro p s bs hn hin
  obtain ⟨t, rd, hrun, hreads, hlen, hdone⟩ := exec_enc_completes p hn hin
  have hagrees := hreads.agreesOutside hlen
  exact ⟨rd, hagrees.len, hagrees.same, t, hrun, hdone⟩

/-! ### DECODE -/

/-- What D_CHAR makes of a '=' it makes of any other code unit with no digit. -/
def unpad (c : Byte) : Byte := if c = padChar then 0x00#8 else c

theorem unpad_ne_padChar (c : Byte) : unpad c ≠ padChar := by
  unfold unpad
  split
  · decide
  next h => exact h

theorem rev_unpad (c : Byte) : rev (unpad c) = rev c := by
  unfold unpad
  split
  next h => rw [h, rev_padChar, codesOutsideTheAlphabetAreInvalid 0x00#8 (by decide)]
  next => rfl

theorem decPutChar_congr {c c' : Byte} (h : rev c = rev c') (s : State) : decPutChar c s = decPutChar c' s := by
  simp only [decPutChar, h]

/-- A step of D_STRUCT goes on for a text that agrees with the bound one. -/
theorem StructMove.exists_decStage {p : Bool} {text text' : List Byte} {s t : State} (hph : s.phase = .dStruct)
    (hstart : DecLoop [] [] s) (hrun : p = true → text'.length % 8 = 0 ∧ s.t.toNat ≤ min 8 (padRun text'))
    (hn : s.n = text'.length) (hin : s.input = Memory.ofBytes text) (hagrees : AgreesOutside s.changed text text')
    (h : StructMove p s t) : ∃ text'', AgreesOutside s.changed text text'' ∧ DecStage p text'' t := by
  have hle := padRun_le_length text'
  cases h with
  | reads c d hp hmore hread heq =>
    subst hp heq
    obtain ⟨hmul, ht⟩ := hrun rfl
    have hset : (text'.set (s.n - 1 - s.t.toNat) c).length = text'.length := List.length_set
    refine ⟨_, hagrees.set (getElem?_of_memRead hin hread), ?_⟩
    refine decStage_decCountPad (s := { s with draws := d }) (hn.trans hset.symm) hph { hstart with } (hset.symm ▸ hmul)
      ?_ hmore.1 (by rw [hset, ← hn]; exact hmore.2) ?_
    · show s.t.toNat ≤ padRun (text'.set (s.n - 1 - s.t.toNat) c)
      rw [hn]
      exact le_padRun_set (ht.trans (min_le_right _ _)) (hn ▸ hmore.2) c
    · show (text'.set (s.n - 1 - s.t.toNat) c)[_ - 1 - s.t.toNat]? = some c
      rw [hset, ← hn, List.getElem?_set_self]
      omega
  | ends hp hall heq =>
    subst hp heq
    obtain ⟨hmul, ht⟩ := hrun rfl
    exact ⟨text', hagrees, decStage_decEndPadRun hn hstart hmul (by omega)⟩
  | strips hp heq =>
    subst hp heq
    exact ⟨text', hagrees, hn ▸ decStage_decSetPayload hstart nofun⟩

/-- A character read is a character of a text that agrees with the bound one. -/
theorem exists_decStage_of_decChar {p : Bool} {text text' : List Byte} {ds : List Digit} {bs : List Byte} {s t : State}
    (hpassed : phase1Ok p text') (hregs : Phase1Regs p text' s) (hloop : DecLoop ds bs s)
    (hdigits : text'.take ds.length = ds.map alpha) (hlt : s.i < payloadLen p text')
    (hin : s.input = Memory.ofBytes text) (hagrees : AgreesOutside s.changed text text') (h : decChar s = .next t) :
    ∃ text'', AgreesOutside s.changed text text'' ∧ DecStage p text'' t := by
  obtain ⟨c, d, hread, rfl⟩ := exists_read_of_decChar h
  have hi := hloop.read
  by_cases hchanged : s.i ∈ s.changed
  · have hset : (text'.set s.i (unpad c)).length = text'.length := List.length_set
    have hpad : p = true → padRun (text'.set s.i (unpad c)) = padRun text' := by
      rintro rfl
      exact padRun_set hlt (unpad_ne_padChar c)
    have hregs' := hregs.congr hset hpad
    refine ⟨text'.set s.i (unpad c), hagrees.set fun hno => absurd hchanged hno, ?_⟩
    rw [← decPutChar_congr (rev_unpad c)]
    refine decStage_decPutChar (s := { s with draws := d }) (phase1Ok_congr hset hpad hpassed) { hregs' with }
      { hloop with } ?_ ?_ ?_
    · rw [← hi, List.take_set_of_le le_rfl, hi, hdigits]
    · rwa [payloadLen_congr hset hpad, ← hi]
    · rw [← hi, List.getElem?_set_self]
      exact hlt.trans_le (payloadLen_le p text')
  · have hc : text'[s.i]? = some c := (hagrees.same _ hchanged).trans (getElem?_of_memRead hin hread hchanged)
    exact ⟨text', hagrees, decStage_decPutChar (s := { s with draws := d }) hpassed { hregs with } { hloop with } hdigits
      (hi ▸ hlt) (hi ▸ hc)⟩

/-- What DECODE's internal steps keep, whatever the host changes: it is as far as on some text that agrees with the
bound one. -/
structure DecRuns (p : Bool) (text : List Byte) (s : State) : Prop where
  len : s.n = text.length
  input : s.input = Memory.ofBytes text
  stage : ∃ text', AgreesOutside s.changed text text' ∧ DecStage p text' s

theorem decRuns_decStart (p : Bool) {text : List Byte} {s : State} (hn : s.n = text.length)
    (hin : s.input = Memory.ofBytes text) : DecRuns p text (decStart p s) := by
  have hsame := decStart_same p s
  exact ⟨hsame.n.trans hn, hsame.input.trans hin, text, .refl _ text, decStage_decStart hn⟩

theorem DecRuns.step {p : Bool} {text : List Byte} {s t : State} (h : DecRuns p text s) (hm : microStep p s = .next t) :
    DecRuns p text t := by
  have hsame := microStep_same hm
  obtain ⟨hn, hin, text', hagrees, hstage⟩ := h
  have hn' : s.n = text'.length := hn.trans hagrees.len.symm
  refine ⟨hsame.n.trans hn, hsame.input.trans hin, ?_⟩
  rw [hsame.changed]
  cases hstage with
  | counting hph hstart hrun =>
    rw [microStep_of_dStruct hph] at hm
    exact (structMove_of_decStruct hm).exists_decStage hph hstart hrun hn' hin hagrees
  | reading ds bs hph hpassed hregs hloop hdigits hle =>
    have hl := hregs.payload hpassed.1
    have hi := hloop.read
    obtain ⟨hnext, hlt⟩ | ⟨hnext, hge⟩ := decNextPhase_cases s <;> simp only [microStep, hph, hnext] at hm
    · exact exists_decStage_of_decChar hpassed hregs hloop hdigits (hl ▸ hlt) hin hagrees hm
    · cases hm
      exact ⟨text', hagrees, decStage_decFinal hpassed hregs hloop hdigits (by omega)⟩
  | ended hph hregs hfin =>
    simp only [microStep, hph] at hm
    cases hm
    exact ⟨text', hagrees, .ended hph hregs hfin⟩

theorem DecRuns.done {p : Bool} {text : List Byte} {s : State} (h : DecRuns p text s) (hidle : s.phase = .idle) :
    ∃ text', AgreesOutside s.changed text text' ∧ DecEnd p text' s := by
  obtain ⟨-, -, text', hagrees, hstage⟩ := h
  cases hstage with
  | counting hph => simp [hidle] at hph
  | reading ds bs hph => exact absurd (hph.symm.trans hidle) (decNextPhase_ne_idle s)
  | ended _ _ hfin => exact ⟨text', hagrees, hfin⟩

/-- R146, R200: the response is fixed by the text. -/
theorem DecEnd.response_eq {p : Bool} {text : List Byte} {s u : State} (hs : DecEnd p text s) (hu : DecEnd p text u) :
    s.response = u.response := by
  obtain ⟨b, rfl, hresp⟩ | ⟨hne, hresp⟩ := hs.answer <;> obtain ⟨b', hb', hresp'⟩ | ⟨hne', hresp'⟩ := hu.answer
  · rw [hresp, hresp', encodeText_inj.mp hb']
  · exact absurd rfl (hne' b)
  · exact absurd hb' (hne b')
  · rw [hresp, hresp']

/-- Settles O27: the text is what the run's ghost has become. -/
theorem disturbedDecodeRespondsForSomeInput : Obligations.DisturbedDecodeRespondsForSomeInput := by
  intro p s text hn hin
  obtain ⟨t, hrun⟩ := exists_exec (.dec p) (inputBound_of_eq hn hin)
  obtain ⟨hruns, hidle⟩ := exec_induct (i := .dec p) (P := DecRuns p text) (fun _ _ h _ hm => h.step hm)
    (decRuns_decStart p hn hin) hrun
  obtain ⟨text', hagrees, hend⟩ := hruns.done hidle
  rw [(exec_same hrun).changed] at hagrees
  obtain ⟨u, hrun', -, -, hend'⟩ := exists_exec_dec p (s := { s with input := Memory.ofBytes text', changed := [] })
    ⟨hn.trans hagrees.len.symm, rfl, rfl⟩
  exact ⟨text', hagrees.len, hagrees.same, t, u, hrun, hrun', hend.response_eq hend'⟩

end Sys2Proof

/-! A command whose IN the host changes at any time while it runs (R194, R195 of 70_reset_and_hazards.md): the machine's
run over the host's actions, for any predicate that the internal steps keep and that changes of IN do not disturb. -/

namespace Sys2Proof

open Machine Spec

/-! ### What a run keeps -/

/-- What the internal steps of the command `i` keep, and the host's changes of IN too. -/
structure KeptWhileRunning (i : Instr) (R : State → Prop) : Prop where
  step : ∀ {s t : State}, R s → microStep (instrPolicy i) s = .next t → R t
  outside : ∀ {s : State} (acts : List HostAction) {changed : List Nat}, R s → s.changed ⊆ changed →
    R { s with hostActions := acts, changed := changed }

/-- The command `i` runs or has completed, with nothing else at the port, and `R` holds. -/
structure Running (i : Instr) (R : State → Prop) (s : State) : Prop where
  word : decodeWord s.cmd = .ok i
  port : s.port = none
  regs : InstrRegs i s
  bound : InputBound s
  kept : R s

theorem InstrRegs.outside {i : Instr} {s : State} (h : InstrRegs i s) (acts : List HostAction) (changed : List Nat) :
    InstrRegs i { s with hostActions := acts, changed := changed } := by
  cases i with
  | enc p =>
    cases h with
    | loop hph hbits hfill hle => exact .loop hph hbits hfill hle
    | pad hph hp hnb hread hge hlt hmore => exact .pad hph hp hnb hread hge hlt hmore
    | done hph hnb hread hle hcount => exact .done hph hnb hread hle hcount
  | dec p =>
    cases h with
    | count hph hread hk hnb hrun => exact .count hph hread hk hnb hrun
    | loop hph hbits hfill hle hl hrem => exact .loop hph hbits hfill hle hl hrem
    | done hph hfill hle hcount => exact .done hph hfill hle hcount

/-- R194: acceptance starts the run with no change listed. -/
theorem running_startCommand {i : Instr} {R : State → Prop} {s : State} {c : Command} (hw : decodeWord c.cmd = .ok i)
    (hstart : R (startCommand i ((s.latch c).bindInput c))) :
    Running i R (startCommand i ((s.latch c).bindInput c)) := by
  have hsame := startCommand_same i ((s.latch c).bindInput c)
  exact ⟨hsame.cmd ▸ hw, hsame.port, instrRegs_startCommand i _,
    (inputBound_of_eq (s := (s.latch c).bindInput c) rfl rfl).of_same hsame, hstart⟩

/-- What a run over the host's actions from `s` ends in: IDLE, with `R`, and with no change but those listed before and
the host's own. -/
def RunEnds (R : State → Prop) (acts : List HostAction) (before : List Nat) (s : State) : Prop :=
  ∃ t, core.run (acts.length + 1) s = .next t ∧ t.phase = .idle ∧ R t ∧
    ∀ j ∈ t.changed, j ∈ before ∨ .disturb j ∈ acts

theorem run_succ {k : Nat} {s u : State} (h : step s = .next u) : core.run (k + 1) s = core.run k u := by
  have hs : core.step s = .next u := h
  simp only [Host.Core.run, hs]

/-- An action that answers, then the run over the rest. -/
theorem RunEnds.cons {R : State → Prop} {a : HostAction} {acts : List HostAction} {before before' : List Nat}
    {s u : State} (h : RunEnds R acts before' u) (hstep : step s = .next u)
    (hbefore : ∀ j ∈ before', j ∈ before ∨ .disturb j ∈ a :: acts) : RunEnds R (a :: acts) before s := by
  obtain ⟨t, hrun, hidle, ht, hchanged⟩ := h
  refine ⟨t, (run_succ hstep).trans hrun, hidle, ht, fun j hj => ?_⟩
  obtain hj' | hj' := hchanged j hj
  · exact hbefore j hj'
  · exact .inr (List.mem_cons_of_mem a hj')

/-- The last step, which runs the command to its completion. -/
theorem runEnds_nil {R : State → Prop} {before : List Nat} {s t : State} (hacts : s.hostActions = [])
    (hstep : commandStep s = .next t) (hidle : t.phase = .idle) (ht : R t) (hchanged : t.changed ⊆ before) :
    RunEnds R [] before s := by
  have hs : step s = .next t := by simpa [step, nextStep, hacts] using hstep
  exact ⟨t, (run_succ hs).trans rfl, hidle, ht, fun j hj => .inl (hchanged hj)⟩

/-! ### The host's actions between the internal steps -/

section

variable {i : Instr} {R : State → Prop} (hR : KeptWhileRunning i R)

include hR

theorem Running.microStep {s t : State} (h : Running i R s) (hm : microStep (instrPolicy i) s = .next t) :
    Running i R t := by
  have hsame := microStep_same hm
  exact ⟨hsame.cmd ▸ h.word, hsame.port.trans h.port, h.regs.step hm, h.bound.of_same hsame, hR.step h.kept hm⟩

theorem Running.outside {s : State} (h : Running i R s) (acts : List HostAction) {changed : List Nat}
    (hsub : s.changed ⊆ changed) : Running i R { s with hostActions := acts, changed := changed } :=
  ⟨h.word, h.port, h.regs.outside acts changed, h.bound, hR.outside acts h.kept hsub⟩

/-- An internal step of the block answers; a completed command waits. -/
theorem Running.blockStep {s : State} (h : Running i R s) :
    ∃ t, blockStep s = .next t ∧ Running i R t ∧ SameCommand s t := by
  by_cases hidle : s.phase = .idle
  · exact ⟨s, by simp [Machine.blockStep, hidle, intake, h.port], h, .refl s⟩
  · obtain ⟨t, hm, -⟩ := h.regs.progress h.bound hidle
    refine ⟨t, ?_, h.microStep hR hm, microStep_same hm⟩
    rw [blockStep_of_busy hidle, policy_of_decodeWord h.word, hm]

/-- The command-level step runs the command to its completion. -/
theorem Running.commandStep {s : State} (h : Running i R s) :
    ∃ t, commandStep s = .next t ∧ t.phase = .idle ∧ R t ∧ t.changed = s.changed := by
  by_cases hidle : s.phase = .idle
  · exact ⟨s, commandStep_waits hidle h.port, hidle, h.kept, rfl⟩
  · obtain ⟨t, hrun⟩ := h.regs.completes h.bound
    obtain ⟨ht, hdone⟩ := runToIdle_induct (P := Running i R) (fun _ _ hu _ hm => hu.microStep hR hm) h hrun
    refine ⟨t, ?_, hdone, ht.kept, (runToIdle_same hrun).changed⟩
    rw [Machine.commandStep, if_neg hidle, h.regs.phaseBound_eq hidle, policy_of_decodeWord h.word, hrun]

/-- A change of IN keeps the run, and lists that offset or none. -/
theorem Running.disturb {s : State} (h : Running i R s) (offset : Nat) :
    Running i R (s.disturb offset) ∧ (s.disturb offset).changed ⊆ offset :: s.changed := by
  unfold State.disturb
  split
  · exact ⟨h, List.subset_cons_self offset s.changed⟩
  · exact ⟨h.outside hR s.hostActions (List.subset_cons_self offset s.changed), List.Subset.refl _⟩

/-- From acceptance on, over the host's actions. -/
theorem Running.runEnds {acts : List HostAction} {s : State} (h : Running i R s) (hacts : s.hostActions = acts)
    (hall : PulsesAndChanges acts) : RunEnds R acts s.changed s := by
  induction acts generalizing s with
  | nil =>
    obtain ⟨t, hstep, hidle, ht, hchanged⟩ := h.commandStep hR
    exact runEnds_nil hacts hstep hidle ht (hchanged ▸ List.Subset.refl _)
  | cons a rest ih =>
    have hrest : PulsesAndChanges rest := fun b hb => hall b (List.mem_cons_of_mem a hb)
    have hs := h.outside hR rest (List.Subset.refl s.changed)
    obtain rfl | ⟨offset, rfl⟩ := hall a List.mem_cons_self
    · obtain ⟨t, hstep, ht, hsame⟩ := hs.blockStep hR
      refine (ih ht hsame.hostActions hrest).cons (by simpa [step, nextStep, hacts, hostStep] using hstep) ?_
      rw [hsame.changed]
      exact fun j hj => .inl hj
    · obtain ⟨ht, hsub⟩ := hs.disturb hR offset
      have hacts' : ({ s with hostActions := rest }.disturb offset).hostActions = rest := by rw [State.disturb_eq]
      refine (ih ht hacts' hrest).cons (by simp [step, nextStep, hacts, hostStep]) fun j hj => ?_
      obtain rfl | hj' := List.mem_cons.mp (hsub hj)
      · exact .inr List.mem_cons_self
      · exact .inl hj'

/-- A presented command over the host's actions: before its acceptance the host's changes do nothing. -/
theorem runEnds_of_presented {c : Command} (hw : decodeWord c.cmd = .ok i)
    (hstart : ∀ s : State, R (startCommand i ((s.latch c).bindInput c))) {acts : List HostAction} {s : State}
    (hidle : s.phase = .idle) (hport : s.port = some c) (hfits : s.cfg.accepts c.n = true)
    (hacts : s.hostActions = acts) (hall : PulsesAndChanges acts) : RunEnds R acts [] s := by
  induction acts generalizing s with
  | nil =>
    obtain ⟨t, hrun⟩ := exists_exec i (s := (s.latch c).bindInput c) (inputBound_of_eq rfl rfl)
    obtain ⟨ht, hdone⟩ := exec_induct (P := R) (fun _ _ hu _ hm => hR.step hu hm) (hstart s) hrun
    have hstep : commandStep s = .next t := by
      simpa [commandStep, hidle, intake, hport, hw, hfits] using hrun
    exact runEnds_nil hacts hstep hdone ht (by rw [(exec_same hrun).changed]; exact List.Subset.refl _)
  | cons a rest ih =>
    have hrest : PulsesAndChanges rest := fun b hb => hall b (List.mem_cons_of_mem a hb)
    obtain rfl | ⟨offset, rfl⟩ := hall a List.mem_cons_self
    · have hrun := running_startCommand hw (hstart { s with hostActions := rest })
      have hsame := startCommand_same i (({ s with hostActions := rest }.latch c).bindInput c)
      refine (hrun.runEnds hR hsame.hostActions hrest).cons ?_ (by rw [hsame.changed]; exact fun j hj => .inl hj)
      simp [step, nextStep, hacts, hostStep, blockStep, hidle, intake, hport, hw, hfits]
    · refine (ih (s := { s with hostActions := rest }) hidle hport hfits rfl hrest).cons ?_ fun j hj => .inl hj
      simp [step, nextStep, hacts, hostStep, State.disturb, hidle]

end

/-! ### ENCODE -/

theorem EncRuns.step {p : Bool} {bs : List Byte} {s t : State} (h : EncRuns p bs s) (hm : microStep p s = .next t) :
    EncRuns p bs t := by
  by_cases hidle : s.phase = .idle
  · simp only [microStep, hidle] at hm
    cases hm
    exact h
  · obtain ⟨t', hm', ht, -⟩ := h.progress hidle
    obtain rfl := Host.Outcome.next.inj (hm.symm.trans hm')
    exact ht

theorem ReadsOf.mono {changed changed' : List Nat} {bs rd : List Byte} (h : ReadsOf changed bs rd)
    (hsub : changed ⊆ changed') : ReadsOf changed' bs rd := fun j hj hc => h j hj fun hc' => hc (hsub hc')

theorem EncEnding.outside {p : Bool} {bs : List Byte} {s : State} (h : EncEnding p bs s) (acts : List HostAction)
    (changed : List Nat) : EncEnding p bs { s with hostActions := acts, changed := changed } := by
  obtain ⟨hph, hp, hk, j, htailed⟩ | hdone := h
  · exact .inl ⟨hph, hp, hk, j, { htailed with }⟩
  · exact .inr hdone

theorem keptWhileRunning_encRuns (p : Bool) (bs : List Byte) : KeptWhileRunning (.enc p) (EncRuns p bs) where
  step h hm := h.step hm
  outside {s} acts changed h hsub := by
    obtain ⟨rd, hreads, hstage⟩ := h.stage
    refine ⟨h.len, h.input, rd, hreads.mono hsub, ?_⟩
    obtain ⟨hle, ds, hloop⟩ | ⟨hlen, hend⟩ := hstage
    · exact .inl ⟨hle, ds, { hloop with }⟩
    · exact .inr ⟨hlen, hend.outside acts changed⟩

/-- Settles O55: the input is what the reads gave, whenever the changes were made. -/
theorem encodeChangedWhileRunning : Obligations.EncodeChangedWhileRunning := by
  intro p s bs hidle hport hfits hall
  obtain ⟨t, hrun, hdone, ht, hchanged⟩ := runEnds_of_presented (keptWhileRunning_encRuns p bs)
    (decodeWord_encodeWord (.enc p)) (fun _ => encRuns_encStart rfl rfl) hidle hport hfits rfl hall
  obtain ⟨rd, hreads, hlen, -, hresp⟩ := ht.done hdone
  have hagrees := hreads.agreesOutside hlen
  exact ⟨t, rd, hrun, hdone, fun j hj => (hchanged j hj).resolve_left List.not_mem_nil, hlen, hagrees.same, hresp⟩

/-! ### DECODE -/

theorem DecStage.outside {p : Bool} {text : List Byte} {s : State} (h : DecStage p text s) (acts : List HostAction)
    (changed : List Nat) : DecStage p text { s with hostActions := acts, changed := changed } := by
  cases h with
  | counting hph hstart hrun => exact .counting hph { hstart with } hrun
  | reading ds bs hph hpassed hregs hloop hdigits hle =>
    exact .reading ds bs hph hpassed { hregs with } { hloop with } hdigits hle
  | ended hph hregs hfin =>
    refine .ended hph { hregs with } ?_
    cases hfin with
    | phase1 hfail hread hresp => exact .phase1 hfail hread hresp
    | char ds c hpassed hlt hdigits hstop hinvalid hread hresp =>
      exact .char ds c hpassed hlt hdigits hstop hinvalid hread hresp
    | final ds bs hpassed hdigits hunpacked hresp => exact .final ds bs hpassed hdigits { hunpacked with } hresp

theorem keptWhileRunning_decRuns (p : Bool) (text : List Byte) : KeptWhileRunning (.dec p) (DecRuns p text) where
  step h hm := h.step hm
  outside {s} acts changed h hsub := by
    obtain ⟨hn, hin, text', hagrees, hstage⟩ := h
    exact ⟨hn, hin, text', hagrees.mono hsub, hstage.outside acts changed⟩

/-- Settles O56: the text is what the run's ghost has become, whenever the changes were made. -/
theorem decodeChangedWhileRunning : Obligations.DecodeChangedWhileRunning := by
  intro p s text hidle hport hfits hall
  obtain ⟨t, hrun, hdone, ht, hchanged⟩ := runEnds_of_presented (keptWhileRunning_decRuns p text)
    (decodeWord_encodeWord (.dec p)) (fun _ => decRuns_decStart p rfl rfl) hidle hport hfits rfl hall
  obtain ⟨text', hagrees, hend⟩ := ht.done hdone
  have hpres : Presented { s with hostActions := [], port := some ⟨encodeWord (.dec p), text'⟩ }
      ⟨encodeWord (.dec p), text'⟩ := ⟨hidle, rfl, rfl⟩
  have hfits' : s.cfg.accepts text'.length = true := hagrees.len ▸ hfits
  obtain ⟨u, hrun', -, -, hend'⟩ := exists_exec_dec p (holds_bindInput _ ⟨encodeWord (.dec p), text'⟩)
  exact ⟨t, u, text', hrun, hdone, fun j hj => (hchanged j hj).resolve_left List.not_mem_nil, hagrees.len, hagrees.same,
    (step_of_presented hpres (decodeWord_encodeWord _) hfits').trans hrun', hend.response_eq hend'⟩

end Sys2Proof

/-! The assembler's lines (R67 of 30_encoding.md): what the assembler reads of each part of a line that is written as R67
writes it. -/

namespace Sys2Proof

open Machine Spec

/-! ### Bytes written in hex -/

theorem hexDigit_hexChar : ∀ v < 16, hexDigit (hexChar v) = some v := by decide

theorem hexChar_ne : ∀ v < 16, hexChar v ≠ '"' ∧ hexChar v ≠ ' ' := by decide

theorem hexByte_hexText (b : Byte) : hexByte (hexChar (b.toNat / 16)) (hexChar (b.toNat % 16)) = some b := by
  have hlt : b.toNat < 256 := b.isLt
  rw [hexByte, hexDigit_hexChar _ (by omega), hexDigit_hexChar _ (Nat.mod_lt _ (by norm_num))]
  simp [Nat.div_add_mod]

/-! ### The input operand -/

/-- A quoted string is read up to its quote. -/
theorem quotedBytes_append {text : List Char} (h : ∀ c ∈ text, c ≠ '"' ∧ c.toNat < 128) (tail : List Char) :
    quotedBytes (text ++ '"' :: tail) = some (text.map fun c => BitVec.ofNat 8 c.toNat, tail) := by
  induction text with
  | nil => simp [quotedBytes]
  | cons c rest ih =>
    obtain ⟨hc, hrest⟩ := List.forall_mem_cons.mp h
    simp [quotedBytes, hc, ih hrest]

theorem hexBytes_quote (tail : List Char) : hexBytes ('"' :: tail) = some ([], tail) := by
  cases tail <;> simp [hexBytes]

theorem hexBytes_hexText_append (b : Byte) (cs : List Char) :
    hexBytes (hexText b ++ cs) = (hexBytes cs).map fun r => (b :: r.1, r.2) := by
  have hlt : b.toNat < 256 := b.isLt
  obtain ⟨hquote, hspace⟩ := hexChar_ne (b.toNat / 16) (by omega)
  simp [hexText, hexBytes, hquote, hspace, hexByte_hexText]

theorem hexBytes_space (cs : List Char) : hexBytes (' ' :: cs) = hexBytes cs := by
  cases cs <;> simp [hexBytes]

/-- A hex byte list is read up to its quote. -/
theorem hexBytes_hexListText_append (bs : List Byte) (tail : List Char) :
    hexBytes (hexListText bs ++ '"' :: tail) = some (bs, tail) := by
  induction bs with
  | nil => exact hexBytes_quote tail
  | cons b rest ih =>
    cases rest with
    | nil => rw [hexListText, hexBytes_hexText_append, hexBytes_quote]; rfl
    | cons b' rest =>
      show hexBytes (hexText b ++ [' '] ++ hexListText (b' :: rest) ++ '"' :: tail) = _
      rw [List.append_assoc, List.append_assoc, hexBytes_hexText_append, List.singleton_append, hexBytes_space, ih]
      rfl

theorem inputOperand_append {op : List Char} {bs : List Byte} (h : InputText op bs) (tail : List Char) :
    inputOperand (op ++ tail) = some (bs, tail) := by
  cases h with
  | quoted text htext =>
    rw [List.append_assoc]
    simpa [inputOperand] using quotedBytes_append htext tail
  | hex bs => simpa [inputOperand] using hexBytes_hexListText_append bs tail

/-! ### Spaces and the end of a line -/

theorem skipSpaces_of_ne {c : Char} (h : c ≠ ' ') (cs : List Char) : skipSpaces (c :: cs) = c :: cs := by
  simp [skipSpaces, h]

theorem skipSpaces_space (cs : List Char) : skipSpaces (' ' :: cs) = skipSpaces cs := by
  simp [skipSpaces]

/-- An input does not begin with a space. -/
theorem skipSpaces_input {op : List Char} {bs : List Byte} (h : InputText op bs) (tail : List Char) :
    skipSpaces (op ++ tail) = op ++ tail := by
  cases h with
  | quoted text _ => exact skipSpaces_of_ne (by decide) _
  | hex bs => exact skipSpaces_of_ne (by decide) _

/-- A line with a mnemonic begins with a letter. -/
theorem exists_cons_of_mnemonicText {m : List Char} {w : Byte} (h : MnemonicText m w) :
    ∃ c cs, m = c :: cs ∧ c ≠ ' ' ∧ c ≠ ';' := by
  cases h <;> exact ⟨_, _, rfl, by decide, by decide⟩

theorem endOfLine_of_ne {c : Char} (hspace : c ≠ ' ') (hcomment : c ≠ ';') (cs : List Char) :
    endOfLine (c :: cs) = false := by
  simp [endOfLine, skipSpaces_of_ne hspace, hcomment]

/-- Spaces and a comment end a line. -/
theorem endOfLine_comment (spaces : Nat) (comment : List Char) :
    endOfLine (List.replicate spaces ' ' ++ ';' :: comment) = true := by
  have hskip : skipSpaces (List.replicate spaces ' ' ++ ';' :: comment) = ';' :: comment := by
    rw [skipSpaces, List.dropWhile_append_of_pos (by simp)]
    exact skipSpaces_of_ne (by decide) comment
  simp [endOfLine, hskip]

/-! ### The whole line -/

/-- A mnemonic is read up to its space. -/
theorem lineWord_append {m rest : List Char} {w : Byte} (h : MnemonicText m w) (hrest : skipSpaces rest = rest) :
    lineWord (m ++ ' ' :: rest) = .ok (w, rest) := by
  have hspace : skipSpaces (' ' :: rest) = rest := (skipSpaces_space rest).trans hrest
  cases h with
  | enc => simp [lineWord, hspace]
  | encP => simp [lineWord, hspace]
  | dec => simp [lineWord, hspace]
  | decP => simp [lineWord, hspace]
  | cmd =>
    have hword (a b : Char) :
        skipSpaces (' ' :: '0' :: 'x' :: a :: b :: ' ' :: rest) = '0' :: 'x' :: a :: b :: ' ' :: rest :=
      (skipSpaces_space _).trans (skipSpaces_of_ne (by decide) _)
    simp [lineWord, hword, hspace, hexText, hexByte_hexText]

/-- A mnemonic and an input, and nothing but a comment after them. -/
theorem parseLine_append {m op tail : List Char} {w : Byte} {bs : List Byte} (hm : MnemonicText m w)
    (hop : InputText op bs) (htail : endOfLine tail = true) :
    parseLine (m ++ ' ' :: (op ++ tail)) = .ok (some ⟨w, bs⟩) := by
  have hword := lineWord_append hm (skipSpaces_input hop tail)
  obtain ⟨c, cs, rfl, hspace, hcomment⟩ := exists_cons_of_mnemonicText hm
  rw [List.cons_append] at hword ⊢
  simp [parseLine, endOfLine_of_ne hspace hcomment, skipSpaces_of_ne hspace, hword, inputOperand_append hop, htail]

/-- Settles O57: the end of the line is empty, or spaces and a comment; a comment alone is an empty line. -/
theorem everyLineFormAssembles : Obligations.EveryLineFormAssembles := by
  refine ⟨fun m op w bs spaces comment hm hop => ⟨?_, ?_⟩, fun comment => ?_⟩
  · simpa using parseLine_append hm hop (tail := []) rfl
  · simpa using parseLine_append hm hop (endOfLine_comment spaces comment)
  · have hend : endOfLine (';' :: comment) = true := endOfLine_comment 0 comment
    simp [parseLine, hend]

/-- Settles O54: a quoted string is a form of the input. -/
theorem quotedLineAssembles : Obligations.QuotedLineAssembles := by
  intro i text htext
  have hline : ∀ {m : List Char} {w : Byte}, MnemonicText m w → parseLine (m ++ [' ', '"'] ++ text ++ ['"']) =
      .ok (some ⟨w, text.map fun c => BitVec.ofNat 8 c.toNat⟩) := fun hm => by
    simpa using parseLine_append hm (.quoted text htext) (tail := []) rfl
  obtain (_ | _) | (_ | _) := i
  · exact hline .enc
  · exact hline .encP
  · exact hline .dec
  · exact hline .decP

end Sys2Proof
